-- ==== Sys2Proof/Word.lean ====
section
/-! DEFINITION. The three unsigned widths of the block (R5, R6): bytes, 16-bit data words and 32-bit registers. -/

namespace Sys2Proof

/-- `u8` of R6: a command or data byte on the serial line. -/
abbrev Byte := BitVec 8

/-- `u16` of R6: a data word, a coordinate, a colour or a FILL count. -/
abbrev Half := BitVec 16

/-- `u32` of R6: a host register or a command word. -/
abbrev Word := BitVec 32

end Sys2Proof
end

