-- ==== Sys2Proof/Syntax.lean ====
section
/-! DEFINITION. The five commands of the block (R73): one constructor per row of spec/opcode_table.json. -/

namespace Sys2Proof

/-- A legal command word, decoded (`Op` of R72). The operands that a command takes from the operand registers
(R71) are no part of it: they are read at accept (R91). -/
inductive Instr where
  /-- SEND_CMD b (R110): send one command byte. -/
  | sendCmd (b : Byte)
  /-- SEND_DATA8 b (R111): send one data byte. -/
  | sendData8 (b : Byte)
  /-- SEND_DATA16 w (R112): send one 16-bit data word. -/
  | sendData16 (w : Half)
  /-- SET_WINDOW (R121): range-check X0, X1, Y0, Y1 and program the panel's window. -/
  | setWindow
  /-- FILL n (R130): the RAM-write command and then `n` copies of COLOR. -/
  | fill (n : Half)
  deriving DecidableEq, Repr

end Sys2Proof
end

