-- ==== Sys2Proof/Config.lean ====
section
/-! DEFINITION. The implementation parameters of R5. -/

namespace Sys2Proof

/-- The parameters of R5 ("A model takes them as arguments of its configuration"). State carries one of
these as its field `cfg`, which no step changes, so a statement about every state is a statement about every
parameter value (assumption 1). -/
structure Config where
  /-- `W`: surface width in columns, 1..65535. -/
  surfaceW : Nat
  /-- `H`: surface height in rows, 1..65535. -/
  surfaceH : Nat
  /-- `CMD_CASET`: the column-address-set command byte. -/
  cmdCaset : Byte
  /-- `CMD_RASET`: the row-address-set command byte. -/
  cmdRaset : Byte
  /-- `CMD_RAMWR`: the RAM-write command byte. -/
  cmdRamwr : Byte
  /-- `CS_ACTIVE_LOW`: true when a low pin means that chip-select is asserted. -/
  csActiveLow : Bool
  /-- `BASE / 32`. R5 makes `BASE` a multiple of 32, so its block number is what is kept. -/
  baseBlock : Nat
  deriving DecidableEq, Repr

/-- `BASE`, the host bus address of register offset 0x00 (R5, R50). -/
def Config.base (c : Config) : Nat := 32 * c.baseBlock

/-- The values R5 gives for this hardware. R5 leaves `BASE` `OPEN`: 0 here is a DESIGN CHOICE (assumption 2). -/
def Config.stf1 : Config where
  surfaceW := 161
  surfaceH := 130
  cmdCaset := 0x2A#8
  cmdRaset := 0x2B#8
  cmdRamwr := 0x2C#8
  csActiveLow := true
  baseBlock := 0

end Sys2Proof
end

