-- ==== Sys2Proof/WellFormed.lean ====
section
/-! DEFINITION. What the spec requires of parameters (R5) and of a command written in assembler (R77, R78).
An `Instr` needs no check of its own: each of its fields has exactly the width the encoding gives it (R71), so
every term of `Instr` is well formed. -/

namespace Sys2Proof

/-- The legal values of R5: `W` and `H` in 1..65535. The other parameters are legal by their types. -/
def Config.wf (c : Config) : Bool :=
  decide (1 ≤ c.surfaceW) && decide (c.surfaceW ≤ 65535) &&
  decide (1 ≤ c.surfaceH) && decide (c.surfaceH ≤ 65535)

/-- `cmd` of the host-program form of R77: a mnemonic with its operand as a number of any size. -/
inductive AsmCmd where
  | sendCmd (b : Nat)
  | sendData8 (b : Nat)
  | sendData16 (w : Nat)
  | setWindow
  | fill (n : Nat)
  deriving DecidableEq, Repr

/-- R78: "An assembler refuses an operand that does not fit its width". -/
def AsmCmd.wf : AsmCmd → Bool
  | .sendCmd b => decide (b < 2 ^ 8)
  | .sendData8 b => decide (b < 2 ^ 8)
  | .sendData16 w => decide (w < 2 ^ 16)
  | .setWindow => true
  | .fill n => decide (n < 2 ^ 16)

end Sys2Proof
end

