-- ==== Sys2Proof/Decode.lean ====
section
/-! DEFINITION. Decoding and encoding of the one format CMD32 (R70 to R78), total on every word and on any list
of bytes; what is not a command is rejected by name. -/

namespace Sys2Proof

/-- `OP` = `w[31:24]` (R70). -/
def opField (w : Word) : Byte := w.extractLsb' 24 8

/-- `RSV` = `w[23:16]` (R70). -/
def rsvField (w : Word) : Byte := w.extractLsb' 16 8

/-- `IMM` = `w[15:0]` (R70). -/
def immField (w : Word) : Half := w.extractLsb' 0 16

/-- `IMM[15:8]` (R71). -/
def immHigh (imm : Half) : Byte := imm.extractLsb' 8 8

/-- `IMM[7:0]` (R71). -/
def immLow (imm : Half) : Byte := imm.extractLsb' 0 8

/-- Why a word, or a run of bytes, is no command (R74, R76). The block records none of these: all of them are
the one error IllegalCommand. -/
inductive Illegal where
  /-- R74 item 1: `OP` is 0x00 or 0x06..0xFF. -/
  | opcode
  /-- R74 item 2: `RSV` is not 0x00. -/
  | reservedBits
  /-- R74 item 3: SEND_CMD or SEND_DATA8 with `IMM[15:8]` not 0x00. -/
  | immediateHigh
  /-- R74 item 4: SET_WINDOW with `IMM` not 0x0000. -/
  | immediateNonzero
  /-- R76: not exactly four bytes. -/
  | length
  deriving DecidableEq, Repr

/-- `decode` of R72, with the reason where the word is illegal. The order of the checks is R72's. -/
def decodeOrWhy (w : Word) : Except Illegal Instr :=
  let op := opField w
  let imm := immField w
  if rsvField w ≠ 0x00#8 then .error .reservedBits
  else if op = 0x01#8 then
    if immHigh imm = 0x00#8 then .ok (.sendCmd (immLow imm)) else .error .immediateHigh
  else if op = 0x02#8 then
    if immHigh imm = 0x00#8 then .ok (.sendData8 (immLow imm)) else .error .immediateHigh
  else if op = 0x03#8 then .ok (.sendData16 imm)
  else if op = 0x04#8 then
    if imm = 0x0000#16 then .ok .setWindow else .error .immediateNonzero
  else if op = 0x05#8 then .ok (.fill imm)
  else .error .opcode

/-- `decode : u32 -> Option Op` of R72. -/
def decode (w : Word) : Option Instr := (decodeOrWhy w).toOption

/-- Byte `k` of a register value: bits `[8k+7:8k]` (R52). -/
def byteLane (w : Word) (k : Nat) : Byte := w.extractLsb' (8 * k) 8

/-- The four bytes of a register value, lowest address first (R52). -/
def wordBytes (w : Word) : List Byte :=
  [byteLane w 0, byteLane w 1, byteLane w 2, byteLane w 3]

/-- The decoder on bytes, lowest address first: a command is exactly one 32-bit word (R76). -/
def decodeBytes : List Byte → Except Illegal Instr
  | [b0, b1, b2, b3] => decodeOrWhy (b3 ++ b2 ++ b1 ++ b0)
  | _ => .error .length

/-- The word of a command (R78). -/
def encode : Instr → Word
  | .sendCmd b => 0x01000000#32 ||| b.setWidth 32
  | .sendData8 b => 0x02000000#32 ||| b.setWidth 32
  | .sendData16 w => 0x03000000#32 ||| w.setWidth 32
  | .setWindow => 0x04000000#32
  | .fill n => 0x05000000#32 ||| n.setWidth 32

/-- The assembler of R77 and R78: it refuses an operand that does not fit its width. -/
def assemble (c : AsmCmd) : Option Instr :=
  if c.wf then
    match c with
    | .sendCmd b => some (.sendCmd (BitVec.ofNat 8 b))
    | .sendData8 b => some (.sendData8 (BitVec.ofNat 8 b))
    | .sendData16 w => some (.sendData16 (BitVec.ofNat 16 w))
    | .setWindow => some .setWindow
    | .fill n => some (.fill (BitVec.ofNat 16 n))
  else none

/-- One row of the opcode map (R73): `(w AND mask) = value`, and the command the row's fields give. -/
structure OpcodeRow where
  value : Word
  mask : Word
  build : Word → Instr

/-- The opcode map of R73, in its order. -/
def opcodeMap : List OpcodeRow :=
  [⟨0x01000000#32, 0xFFFFFF00#32, fun w => .sendCmd (w.extractLsb' 0 8)⟩,
   ⟨0x02000000#32, 0xFFFFFF00#32, fun w => .sendData8 (w.extractLsb' 0 8)⟩,
   ⟨0x03000000#32, 0xFFFF0000#32, fun w => .sendData16 (w.extractLsb' 0 16)⟩,
   ⟨0x04000000#32, 0xFFFFFFFF#32, fun _ => .setWindow⟩,
   ⟨0x05000000#32, 0xFFFF0000#32, fun w => .fill (w.extractLsb' 0 16)⟩]

/-- What the decoder reads from a row's bits `w`, numbered as spec/opcode_table.json numbers them: the word's
bytes are laid out as a byte-addressed host bus lays them out (R52) and given to the decoder. Every row is one
32-bit word, so more than 32 bits are no command (R76), and bits above `nbits` are 0. -/
def decodeTableWord (nbits w : Nat) : Option Instr :=
  if nbits ≤ 32 then
    (decodeBytes (wordBytes (BitVec.ofNat 32 (w % 2 ^ nbits)))).toOption
  else none

end Sys2Proof
end

