-- ==== Sys2Proof/Machine/State.lean ====
section
/-! DEFINITION. The state of the block (10_state.md), of the agents around it (R4) and of the observation (R9),
all of it plain data, and the state after power-on reset (R35, R180). -/

namespace Sys2Proof.Machine

/-- The data/command line, and the `dc` of a frame (R8, R92). -/
inductive Dc where
  /-- `CMD`: line low, 0. -/
  | cmd
  /-- `DATA`: line high, 1. -/
  | data
  deriving DecidableEq, Repr

/-- `Payload` of R8: what one transfer carries. -/
inductive Payload where
  /-- `B(b)`: one byte. -/
  | byte (b : Byte)
  /-- `Wd(w)`: one 16-bit word. -/
  | word (w : Half)
  deriving DecidableEq, Repr

/-- A frame (R8): one chip-select assertion that holds one transfer. -/
structure Frame where
  dc : Dc
  payload : Payload
  deriving DecidableEq, Repr

/-- The position of the sequencer within the head frame (R31, R94). -/
inductive Phase where
  /-- `P_CS`: chip-select is asserted next. -/
  | pCs
  /-- `P_DC`: the data/command line is driven next. -/
  | pDc
  /-- `P_XFER`: the transfer is requested next. -/
  | pXfer
  /-- `P_WAIT`: the transport's `DONE` is awaited. -/
  | pWait
  /-- `P_REL`: chip-select is released next. -/
  | pRel
  deriving DecidableEq, Repr

/-- An event (R8). -/
inductive Event where
  /-- `CS(1)` (assert, true) or `CS(0)` (release, false). -/
  | cs (asserted : Bool)
  /-- `DC(0)` or `DC(1)`. -/
  | dc (level : Dc)
  /-- `XB(b)`: request `transferByte(b)`. -/
  | xb (b : Byte)
  /-- `XW(w)`: request `transferWord(w)`. -/
  | xw (w : Half)
  /-- `DONE(r)`: the transport's completion, with the value it received: a byte for `XB`, a word for `XW` (R96). -/
  | done (r : Payload)
  /-- `RST`: a block reset (R181). -/
  | rst
  deriving DecidableEq, Repr

/-- The error kinds of R160. The block keeps no code: a STATUS bit, or the access's response, is the record. -/
inductive ErrorKind where
  /-- Code 1: a SET_WINDOW whose range check fails (R120); recorded as RERR. -/
  | rangeError
  /-- Code 2: an illegal word written to CMD with BUSY = 0 (R24); recorded as ILL. -/
  | illegalCommand
  /-- Code 3: a word written to CMD with BUSY = 1 (R25); recorded as OVR. -/
  | commandOverrun
  /-- Code 4: a host access of the wrong width or alignment (R163); recorded only in the access's response. -/
  | hostBusError
  deriving DecidableEq, Repr

/-- The eight register slots of R20. -/
inductive Reg where
  | status
  | x0
  | x1
  | y0
  | y1
  | color
  | cmd
  | reserved
  deriving DecidableEq, Repr

/-- What a host access does. -/
inductive AccessKind where
  | read
  | write (v : Word)
  deriving DecidableEq, Repr

/-- One host bus access: its bus address, its width in bits, and what it does. Only aligned 32-bit accesses are
taken (R51); the value of a write of another width is never used. -/
structure HostAccess where
  addr : Nat
  width : Nat
  kind : AccessKind
  deriving DecidableEq, Repr

/-- One statement of a host program (R11, R77), as far as the block can see it. -/
inductive HostStmt where
  /-- `WR` or `RD`, or any other host bus access. -/
  | access (a : HostAccess)
  /-- `WAIT`: the poll loop on STATUS.BUSY (R79). Each turn makes one read. -/
  | wait
  /-- `RD 0x00 -> s ; if s[1] = 1 then stop with RangeError`, the end of SETWIN (R79). -/
  | checkRange
  /-- `delayMs(d)`: the host's Delay Service (R186). It makes no access to the block. -/
  | delay (ms : Byte)
  deriving DecidableEq, Repr

/-- What one host statement gave the host: the answer to an access (R9 (b), R163), or the stop of SETWIN. -/
inductive HostResult where
  /-- A read returned this value. -/
  | readData (v : Word)
  /-- A write was taken. -/
  | written
  /-- The access got the bus's error response (R163). -/
  | busError
  /-- The host program stopped with this error (R79); that it is the whole program is the model's choice
  (assumption 16). -/
  | stopped (e : ErrorKind)
  deriving DecidableEq, Repr

/-- Whose turn it is to move (R4), with the values that the spec leaves free. The list of turns in State is data
that nothing constrains, so a statement about every state is a statement about every interleaving and about every
value drawn (assumptions 3, 5 and 6). -/
inductive Turn where
  /-- The host takes one step of its program. -/
  | host
  /-- The sequencer takes its step, if it has one (R94). -/
  | sequencer
  /-- The transport takes its step, if it has one (R96). `r` is the 16 bits from which the received value is
  taken: all of them for a word, the low eight for a byte. -/
  | transport (r : Half)
  /-- The platform drives reset (R180). `d` is the level of the `dc` line that this reset leaves, which R35
  leaves unspecified. -/
  | reset (d : Dc)
  deriving DecidableEq, Repr

/-- The operand registers as copied at accept (R30, R91). -/
structure Snapshot where
  x0 : Half
  x1 : Half
  y0 : Half
  y1 : Half
  color : Half
  deriving DecidableEq, Repr

/-- Why the machine stops with a fault. No instruction raises one. -/
inductive Fault where
  /-- Raised by a host access whose address lies outside the 32-byte window (R50), which is no access to this
  block. Safe: the model stops where the platform would hand the access to another unit. -/
  | outsideWindow
  deriving DecidableEq, Repr

/-- Why the machine refuses. -/
inductive Refusal where
  /-- Raised by `exec` for an instruction that has no meaning yet; here none is left. Safe: the model stops. -/
  | notModelled (mnemonic : String)
  deriving DecidableEq, Repr

/-- The state of the machine. -/
structure State where
  /-- The parameters of R5. No step changes them. -/
  cfg : Config
  /-- STATUS.RERR (R23). -/
  rerr : Bool
  /-- STATUS.ILL (R24). -/
  ill : Bool
  /-- STATUS.OVR (R25). -/
  ovr : Bool
  /-- X0: window first column (R27). -/
  x0 : Half
  /-- X1: window last column (R27). -/
  x1 : Half
  /-- Y0: window first row (R27). -/
  y0 : Half
  /-- Y1: window last row (R27). -/
  y1 : Half
  /-- COLOR: the colour of FILL (R27). -/
  color : Half
  /-- The frames still to be emitted, head first (R31). STATUS.BUSY is computed from it (R22). -/
  pending : List Frame
  /-- The position within the head frame (R31). -/
  phase : Phase
  /-- Whether chip-select is asserted (R32). -/
  cs : Bool
  /-- The level driven on the data/command line (R32). -/
  dc : Dc
  /-- The transfer request outstanding to the transport (R32). -/
  req : Option Payload
  /-- Ghost: every event of R8 since power-on, oldest first. The `trace` of R32 is computed from it. -/
  history : List Event
  /-- Ghost: what the host got from its accesses since power-on, oldest first (R9 (b)). -/
  hostLog : List HostResult
  /-- The model's own: what the host has still to do (R4, R11). -/
  program : List HostStmt
  /-- The model's own: who moves, in order (R4, R54). -/
  turns : List Turn
  deriving DecidableEq, Repr

/-- The state after power-on reset of a block built for `c` (R35, R180). `d` is the level of the `dc` line, which
R35 leaves unspecified. -/
def State.powerOn (c : Config) (d : Dc) : State where
  cfg := c
  rerr := false
  ill := false
  ovr := false
  x0 := 0x0000#16
  x1 := 0x0000#16
  y0 := 0x0000#16
  y1 := 0x0000#16
  color := 0x0000#16
  pending := []
  phase := .pCs
  cs := false
  dc := d
  req := none
  history := []
  hostLog := []
  program := []
  turns := []

/-- The machine right after power-on reset, with the parameter values of R5. The `dc` line is low: DESIGN CHOICE
(assumption 4), since R35 leaves its level unspecified. -/
def State.reset : State := State.powerOn Config.stf1 .cmd

end Sys2Proof.Machine
end

