-- ==== Sys2Proof/Machine/Flags.lean ====
section
/-! DEFINITION. The STATUS bits: BUSY, RERR, ILL and OVR (R21 to R26), and how an error is recorded in them
(R160). -/

namespace Sys2Proof.Machine

/-- STATUS.BUSY: not stored, 1 exactly when `pending` is not empty (R22). -/
def State.busy (s : State) : Bool := !s.pending.isEmpty

/-- The value a read of STATUS returns: `zext_32(OVR ++ ILL ++ RERR ++ BUSY)` (R26). -/
def State.statusWord (s : State) : Word :=
  (BitVec.ofBool s.ovr ++ BitVec.ofBool s.ill ++ BitVec.ofBool s.rerr ++ BitVec.ofBool s.busy).setWidth 32

/-- A host write of `v` to STATUS: bits 2 and 3 clear ILL and OVR, every other bit is ignored (R26). -/
def State.writeStatus (v : Word) (s : State) : State :=
  { s with ill := s.ill && !v.getLsbD 2, ovr := s.ovr && !v.getLsbD 3 }

/-- RERR, written at every accept (R23). -/
def State.setRerr (failed : Bool) (s : State) : State := { s with rerr := failed }

/-- The codes of R160. -/
def ErrorKind.code : ErrorKind → Nat
  | .rangeError => 1
  | .illegalCommand => 2
  | .commandOverrun => 3
  | .hostBusError => 4

/-- `raise E` of R7, the one way an error is recorded: in its STATUS bit (R160), with no transfer of control
(R166). HostBusError has no bit. -/
def State.raise (e : ErrorKind) (s : State) : State :=
  match e with
  | .rangeError => s.setRerr true
  | .illegalCommand => { s with ill := true }
  | .commandOverrun => { s with ovr := true }
  | .hostBusError => s

end Sys2Proof.Machine
end

