-- ==== Sys2Proof/Machine/Operands.lean ====
section
/-! DEFINITION. Where operands come from: the register window by offset (R20), the operand registers (R27) and
their snapshot at accept (R91). -/

namespace Sys2Proof.Machine

/-- The byte offset of a register slot from `BASE` (R20). -/
def Reg.offset : Reg → Nat
  | .status => 0x00
  | .x0 => 0x04
  | .x1 => 0x08
  | .y0 => 0x0C
  | .y1 => 0x10
  | .color => 0x14
  | .cmd => 0x18
  | .reserved => 0x1C

/-- The register slot at an offset, if the offset is one of the eight that R51 admits. -/
def regAt : Nat → Option Reg
  | 0x00 => some .status
  | 0x04 => some .x0
  | 0x08 => some .x1
  | 0x0C => some .y0
  | 0x10 => some .y1
  | 0x14 => some .color
  | 0x18 => some .cmd
  | 0x1C => some .reserved
  | _ => none

/-- `v[15:0]`, the part of a written value that an operand register stores (R27). -/
def operandBits (v : Word) : Half := v.extractLsb' 0 16

/-- `zext_32` of an operand register, as a host read returns it (R27). -/
def zext32 (h : Half) : Word := h.setWidth 32

/-- The copy of the operand registers taken at accept (R91). -/
def State.snapshot (s : State) : Snapshot where
  x0 := s.x0
  x1 := s.x1
  y0 := s.y0
  y1 := s.y1
  color := s.color

end Sys2Proof.Machine
end

