-- ==== Sys2Proof/Machine/Ops.lean ====
section
/-! DEFINITION. The operations that the meanings, the sequencer and the host port share: the frame shorthands
(R8), emitting an event (R7), recording a host result, and the accept of a command (R90). -/

namespace Sys2Proof.Machine

/-- `C(b) = (CMD, B(b))` of R8. -/
def frameC (b : Byte) : Frame := ⟨.cmd, .byte b⟩

/-- `D8(b) = (DATA, B(b))` of R8. -/
def frameD8 (b : Byte) : Frame := ⟨.data, .byte b⟩

/-- `D16(w) = (DATA, Wd(w))` of R8. -/
def frameD16 (w : Half) : Frame := ⟨.data, .word w⟩

/-- Record an event. For an event of the block this is `Emit` of R7. -/
def State.emit (e : Event) (s : State) : State := { s with history := s.history ++ [e] }

/-- Record what the host got (R9 (b)). -/
def State.logHost (r : HostResult) (s : State) : State := { s with hostLog := s.hostLog ++ [r] }

/-- The accept of R90 for a command that decodes: with BUSY = 1 the word is an overrun; otherwise RERR takes the
result of the range check and `pending` the frames, both of which the meaning has computed from the snapshot. No
event is emitted. -/
def State.accept (failed : Bool) (frames : List Frame) (s : State) : State :=
  if s.busy then s.raise .commandOverrun
  else { s.setRerr failed with pending := frames, phase := .pCs }

end Sys2Proof.Machine
end

