-- ==== Sys2Proof/Machine/Framer.lean ====
section
/-! DEFINITION. The transaction framer's instructions SEND_CMD, SEND_DATA8 and SEND_DATA16 (41_framer.md). -/

namespace Sys2Proof.Machine

/-- SEND_CMD (R110): one frame `C(b)`. -/
def execSendCmd (b : Byte) (s : State) : Host.Outcome State Fault Refusal :=
  .next (s.accept false [frameC b])

/-- SEND_DATA8 (R111): one frame `D8(b)`. -/
def execSendData8 (b : Byte) (s : State) : Host.Outcome State Fault Refusal :=
  .next (s.accept false [frameD8 b])

/-- SEND_DATA16 (R112): one frame `D16(w)`. -/
def execSendData16 (w : Half) (s : State) : Host.Outcome State Fault Refusal :=
  .next (s.accept false [frameD16 w])

end Sys2Proof.Machine
end

