-- ==== Sys2Proof/Machine/Streamer.lean ====
section
/-! DEFINITION. The pixel-repeat streamer's instruction FILL (43_streamer.md). -/

namespace Sys2Proof.Machine

/-- The frames of FILL (R130): the RAM-write command and `n` copies of the snapshot's colour. -/
def fillFrames (c : Config) (n : Half) (k : Snapshot) : List Frame :=
  frameC c.cmdRamwr :: List.replicate n.toNat (frameD16 k.color)

/-- FILL (R130). -/
def execFill (n : Half) (s : State) : Host.Outcome State Fault Refusal :=
  .next (s.accept false (fillFrames s.cfg n s.snapshot))

end Sys2Proof.Machine
end

