-- ==== Sys2Proof/Machine/Window.lean ====
section
/-! DEFINITION. The window sequencer's instruction SET_WINDOW (42_window.md). -/

namespace Sys2Proof.Machine

/-- The range check of R120 on the snapshot: unsigned comparisons with `W` and `H`. -/
def windowRangeFail (c : Config) (k : Snapshot) : Bool :=
  decide (k.x1.toNat < k.x0.toNat) || decide (c.surfaceW ≤ k.x1.toNat) ||
  decide (k.y1.toNat < k.y0.toNat) || decide (c.surfaceH ≤ k.y1.toNat)

/-- The frames of SET_WINDOW (R121): none if the check fails, else column-address-set with `x0`, `x1` and
row-address-set with `y0`, `y1`. -/
def windowFrames (c : Config) (k : Snapshot) : List Frame :=
  if windowRangeFail c k then []
  else [frameC c.cmdCaset, frameD16 k.x0, frameD16 k.x1, frameC c.cmdRaset, frameD16 k.y0, frameD16 k.y1]

/-- SET_WINDOW (R121). -/
def execSetWindow (s : State) : Host.Outcome State Fault Refusal :=
  .next (s.accept (windowRangeFail s.cfg s.snapshot) (windowFrames s.cfg s.snapshot))

end Sys2Proof.Machine
end

