-- ==== Sys2Proof/Machine/Dispatch.lean ====
section
/-! DEFINITION. One arm per command: the accept of a decoded command word (R90). -/

namespace Sys2Proof.Machine

def exec (i : Instr) (s : State) : Host.Outcome State Fault Refusal :=
  match i with
  | .sendCmd b => Sys2Proof.Machine.execSendCmd b s
  | .sendData8 b => Sys2Proof.Machine.execSendData8 b s
  | .sendData16 w => Sys2Proof.Machine.execSendData16 w s
  | .setWindow => Sys2Proof.Machine.execSetWindow s
  | .fill n => Sys2Proof.Machine.execFill n s

end Sys2Proof.Machine
end

