-- ==== Sys2Proof/Machine/Frames.lean ====
section
/-! DEFINITION. The two tables over all commands, `frames(op, snap)` of R93 and `rangeFail(op, snap)` of R120, and
the events a frame puts on the trace (R95). -/

namespace Sys2Proof.Machine

/-- `frames(op, snap)` of R93. -/
def opFrames (c : Config) (i : Instr) (k : Snapshot) : List Frame :=
  match i with
  | .sendCmd b => [frameC b]
  | .sendData8 b => [frameD8 b]
  | .sendData16 w => [frameD16 w]
  | .setWindow => windowFrames c k
  | .fill n => fillFrames c n k

/-- `rangeFail(op, snap)` of R120: false for every command but SET_WINDOW. -/
def rangeFail (c : Config) (i : Instr) (k : Snapshot) : Bool :=
  match i with
  | .sendCmd _ => false
  | .sendData8 _ => false
  | .sendData16 _ => false
  | .setWindow => windowRangeFail c k
  | .fill _ => false

/-- The transfer request of a payload: `XB(b)` or `XW(w)` (R94). -/
def Payload.request : Payload → Event
  | .byte b => .xb b
  | .word w => .xw w

/-- The four block events of a frame, in order (R95). -/
def Frame.events (f : Frame) : List Event :=
  [.cs true, .dc f.dc, f.payload.request, .cs false]

end Sys2Proof.Machine
end

