-- ==== Sys2Proof/Machine/Port.lean ====
section
/-! DEFINITION. The host register window (20_memory.md): reads, writes, the command port (R90), the response to an
access that is not taken (R51, R163), and which error an access raises (R167). -/

namespace Sys2Proof.Machine

/-- The value a host read of a register returns (R26 to R29). -/
def State.readReg (r : Reg) (s : State) : Word :=
  match r with
  | .status => s.statusWord
  | .x0 => zext32 s.x0
  | .x1 => zext32 s.x1
  | .y0 => zext32 s.y0
  | .y1 => zext32 s.y1
  | .color => zext32 s.color
  | .cmd => 0x00000000#32
  | .reserved => 0x00000000#32

/-- A host write of `w` to CMD (R90): BUSY is looked at first, then the word is decoded, then it is accepted. -/
def writeCmd (w : Word) (s : State) : Host.Outcome State Fault Refusal :=
  if s.busy then .next (s.raise .commandOverrun)
  else
    match decode w with
    | none => .next (s.raise .illegalCommand)
    | some i => exec i s

/-- A host write of `v` to a register (R26 to R29). -/
def writeReg (r : Reg) (v : Word) (s : State) : Host.Outcome State Fault Refusal :=
  match r with
  | .status => .next (s.writeStatus v)
  | .x0 => .next { s with x0 := operandBits v }
  | .x1 => .next { s with x1 := operandBits v }
  | .y0 => .next { s with y0 := operandBits v }
  | .y1 => .next { s with y1 := operandBits v }
  | .color => .next { s with color := operandBits v }
  | .cmd => writeCmd v s
  | .reserved => .next s

/-- An access that the block takes (R51), on the register it names. -/
def accessReg (r : Reg) (k : AccessKind) (s : State) : Host.Outcome State Fault Refusal :=
  match k with
  | .read => .next (s.logHost (.readData (s.readReg r)))
  | .write v => writeReg r v (s.logHost .written)

/-- Whether an address lies in the window of R50. -/
def inWindow (c : Config) (addr : Nat) : Bool :=
  decide (c.base ≤ addr) && decide (addr < c.base + 32)

/-- The register an access names, if the block takes it: 32 bits wide and aligned to 4 bytes (R51). -/
def HostAccess.target (a : HostAccess) (c : Config) : Option Reg :=
  if a.width = 32 then regAt (a.addr - c.base) else none

/-- One host access (R51, R54). Any access in the window that is not an aligned 32-bit one gets the bus's error
response and changes nothing (R163). -/
def hostAccess (a : HostAccess) (s : State) : Host.Outcome State Fault Refusal :=
  if inWindow s.cfg a.addr then
    match a.target s.cfg with
    | none => .next ((s.raise .hostBusError).logHost .busError)
    | some r => accessReg r a.kind s
  else .fault .outsideWindow

/-- The error a write of `w` to CMD raises, if any, in the order of R167. -/
def cmdError (w : Word) (s : State) : Option ErrorKind :=
  if s.busy then some .commandOverrun
  else
    match decode w with
    | none => some .illegalCommand
    | some i => if rangeFail s.cfg i s.snapshot then some .rangeError else none

/-- The error an access in the window raises, if any, in the order of R167. -/
def accessError (a : HostAccess) (s : State) : Option ErrorKind :=
  match a.target s.cfg, a.kind with
  | none, _ => some .hostBusError
  | some .cmd, .write w => cmdError w s
  | some _, _ => none

end Sys2Proof.Machine
end

