-- ==== Sys2Proof/Machine/Reset.lean ====
section
/-! DEFINITION. A reset while the block runs (R180, R181). -/

namespace Sys2Proof.Machine

/-- Reset at any time (R180): every register and every piece of sequencer and handshake state takes its value of
R35, the `dc` line a level `d` that nothing constrains, and `RST` is recorded (R181). No `CS(0)` is emitted. The
host, its results and the turns are outside the block and stay. -/
def resetStep (d : Dc) (s : State) : State :=
  { s.emit .rst with
    rerr := false
    ill := false
    ovr := false
    x0 := 0x0000#16
    x1 := 0x0000#16
    y0 := 0x0000#16
    y1 := 0x0000#16
    color := 0x0000#16
    pending := []
    phase := .pCs
    cs := false
    dc := d
    req := none }

end Sys2Proof.Machine
end

