-- ==== Sys2Proof/Machine/Sequencer.lean ====
section
/-! DEFINITION. The sequencer's and the transport's steps (R94, R96), and what an accepted operation has still to
emit. -/

namespace Sys2Proof.Machine

/-- The sequencer's step on a head frame `f` with `rest` behind it, by phase (R94). In `P_WAIT` there is none. -/
def seqStepOn (f : Frame) (rest : List Frame) (s : State) : State :=
  match s.phase with
  | .pCs => { s.emit (.cs true) with cs := true, phase := .pDc }
  | .pDc => { s.emit (.dc f.dc) with dc := f.dc, phase := .pXfer }
  | .pXfer => { s.emit f.payload.request with req := some f.payload, phase := .pWait }
  | .pWait => s
  | .pRel => { s.emit (.cs false) with cs := false, pending := rest, phase := .pCs }

/-- The sequencer's turn (R94). With `pending = []`, or in `P_WAIT`, the sequencer has no step and its turn
passes. -/
def seqStep (s : State) : State :=
  match s.pending with
  | [] => s
  | f :: rest => seqStepOn f rest s

/-- The value a transfer returns, a byte for `XB` and a word for `XW`, from 16 bits drawn freely (R96). -/
def Payload.received (p : Payload) (r : Half) : Payload :=
  match p with
  | .byte _ => .byte (r.extractLsb' 0 8)
  | .word _ => .word r

/-- The transport's turn: `DONE(r)` when a request is outstanding (R96). Otherwise the transport has no step and
its turn passes. The block discards the received value: only the ghost history shows it. -/
def transportStep (r : Half) (s : State) : State :=
  match s.req with
  | none => s
  | some p => { s.emit (.done (p.received r)) with req := none, phase := .pRel }

/-- How many of the head frame's four block events are already emitted in a phase (R94, R95). -/
def Phase.emitted : Phase → Nat
  | .pCs => 0
  | .pDc => 1
  | .pXfer => 2
  | .pWait => 3
  | .pRel => 3

/-- The block events that the operation in progress has still to emit: none when idle (R94, R95). -/
def State.remaining (s : State) : List Event :=
  (s.pending.flatMap Frame.events).drop s.phase.emitted

/-- How many sequencer and transport steps are left of the head frame in a phase (R94, R96). -/
def Phase.stepsLeft : Phase → Nat
  | .pCs => 5
  | .pDc => 4
  | .pXfer => 3
  | .pWait => 2
  | .pRel => 1

/-- How many sequencer and transport steps the operation in progress has still to take: each frame takes five
(R94, R96). -/
def State.stepsLeft (s : State) : Nat :=
  match s.pending with
  | [] => 0
  | _ :: rest => s.phase.stepsLeft + 5 * rest.length

end Sys2Proof.Machine
end

