-- ==== Sys2Proof/Machine/Agents.lean ====
section
/-! DEFINITION. The agents of R4, one turn each: the host with its program (R11, R79), the sequencer, the
transport, and the platform's reset. -/

namespace Sys2Proof.Machine

/-- The host's read of STATUS, as `WAIT` and SETWIN make it (R79). -/
def State.pollStatus (s : State) : State := s.logHost (.readData s.statusWord)

/-- One statement of the host's program, with `rest` behind it. `s` still has the statement at the head of its
program: `WAIT` stays there while STATUS[0] reads 1, and SETWIN's check ends the whole program when STATUS[1] reads 1
(R79; DESIGN CHOICE, assumption 16). -/
def hostStmt (st : HostStmt) (rest : List HostStmt) (s : State) : Host.Outcome State Fault Refusal :=
  match st with
  | .access a => hostAccess a { s with program := rest }
  | .wait =>
    if s.statusWord.getLsbD 0 then .next s.pollStatus
    else .next { s.pollStatus with program := rest }
  | .checkRange =>
    if s.statusWord.getLsbD 1 then .next { s.pollStatus.logHost (.stopped .rangeError) with program := [] }
    else .next { s.pollStatus with program := rest }
  | .delay _ => .next { s with program := rest }

/-- The host's turn: one statement of its program (R54). With no program left the turn passes. -/
def hostStep (s : State) : Host.Outcome State Fault Refusal :=
  match s.program with
  | [] => .next s
  | st :: rest => hostStmt st rest s

/-- One agent's turn (R4). -/
def takeTurn (t : Turn) (s : State) : Host.Outcome State Fault Refusal :=
  match t with
  | .host => hostStep s
  | .sequencer => .next (seqStep s)
  | .transport r => .next (transportStep r s)
  | .reset d => .next (resetStep d s)

/-- The machine's step: whoever is next takes a turn. With no turn listed nothing moves. -/
def nextTurn (s : State) : Host.Outcome State Fault Refusal :=
  match s.turns with
  | [] => .next s
  | t :: ts => takeTurn t { s with turns := ts }

/-- A 32-bit host write of `v` at `BASE + off` (R7, R11). -/
def writeAt (c : Config) (off : Nat) (v : Word) : HostStmt :=
  .access { addr := c.base + off, width := 32, kind := .write v }

/-- A 32-bit host read at `BASE + off` (R7, R11). -/
def readAt (c : Config) (off : Nat) : HostStmt :=
  .access { addr := c.base + off, width := 32, kind := .read }

/-- `s` with an agent's turn put before the others. Every state with a turn listed is of this form. -/
def State.turnNext (t : Turn) (s : State) : State := { s with turns := t :: s.turns }

/-- `s` with the host as the next agent to move, and `st` as its next statement. -/
def State.hostNext (st : HostStmt) (s : State) : State :=
  { s with program := st :: s.program, turns := .host :: s.turns }

/-- `s` with the word of `nbits` bits as the host's next write to CMD, and the host as the next agent to move. -/
def offerCommand (s : State) (nbits w : Nat) : State :=
  s.hostNext (writeAt s.cfg Reg.cmd.offset (BitVec.ofNat 32 (w % 2 ^ nbits)))

/-- The register and the value that the host's next statement writes, if it is a write that the block takes. -/
def State.hostWrite (s : State) : Option (Reg × Word) :=
  match s.program with
  | .access a :: _ =>
    match a.kind with
    | .read => none
    | .write v => if inWindow s.cfg a.addr then (a.target s.cfg).map fun r => (r, v) else none
  | _ => none

/-- The register and the value that the next step writes, if it is a host write that the block takes. -/
def State.nextWrite (s : State) : Option (Reg × Word) :=
  match s.turns with
  | .host :: _ => s.hostWrite
  | _ => none

end Sys2Proof.Machine
end

