-- ==== Sys2Proof/Machine/Step.lean ====
section
/-! DEFINITION. One step of the machine: one agent's turn (R4, R54). -/

namespace Sys2Proof.Machine

/-- One step: the agent at the head of the turns moves. -/
def step (s : State) : Host.Outcome State Fault Refusal := nextTurn s

/-- The block fetches nothing: a command runs when the host writes its word to CMD (R90). The word is the host's
next access, and the host is the next to move (assumption 7). -/
def State.withFetchWord (s : State) (nbits w : Nat) : State := offerCommand s nbits w

end Sys2Proof.Machine
end

