-- ==== Sys2Proof/Machine/HostPrograms.lean ====
section
/-! DEFINITION. The host programs that the spec writes out: command mnemonics (R77), the pseudo-instructions (R79,
R80) and the init interpreter (R185, R186). They are lists of host statements; none of them is a command of the
block. -/

namespace Sys2Proof.Machine

/-- `cmd` of R77: shorthand for a write of the command's word to CMD. -/
def cmdStmt (c : Config) (i : Instr) : HostStmt := writeAt c Reg.cmd.offset (encode i)

/-- SETWIN of R79, in the operand order of R80: both column bounds first. -/
def setwin (c : Config) (x0 x1 y0 y1 : Half) : List HostStmt :=
  [writeAt c Reg.x0.offset (zext32 x0), writeAt c Reg.x1.offset (zext32 x1),
   writeAt c Reg.y0.offset (zext32 y0), writeAt c Reg.y1.offset (zext32 y1),
   .wait, cmdStmt c .setWindow, .checkRange]

/-- FILLC of R79. The assembler refuses a count that does not fit 16 bits (R78). -/
def fillc (c : Config) (color : Half) (n : Nat) : Option (List HostStmt) :=
  (assemble (.fill n)).map fun i => [writeAt c Reg.color.offset (zext32 color), .wait, cmdStmt c i]

/-- SETWIN and then FILLC with a count, as PIXEL, HLINE, VLINE and RECT write them (R79). A count that does not fit
16 bits has no FILL word (R78). Where the window fails the range check the macro is then SETWIN alone: FILLC is reached
only after a window that passed (R79). Where it passes, the assembler refuses the macro (assumption 13). -/
def windowAndFill (c : Config) (x0 x1 y0 y1 color : Half) (n : Nat) : Option (List HostStmt) :=
  match fillc c color n with
  | some f => some (setwin c x0 x1 y0 y1 ++ f)
  | none => if windowRangeFail c ⟨x0, x1, y0, y1, color⟩ then some (setwin c x0 x1 y0 y1) else none

/-- The lower of two coordinates (`min` of R79). -/
def lower (a b : Half) : Half := if a.toNat ≤ b.toNat then a else b

/-- The higher of two coordinates (`max` of R79). -/
def upper (a b : Half) : Half := if a.toNat ≤ b.toNat then b else a

/-- `b-a+1`, on unbounded integers (R79). -/
def span (a b : Half) : Nat := b.toNat - a.toNat + 1

/-- PIXEL of R79. -/
def pixel (c : Config) (x y color : Half) : Option (List HostStmt) :=
  windowAndFill c x x y y color 1

/-- CLEAR of R79: defined only when `W*H <= 0xFFFF`. -/
def clear (c : Config) (color : Half) : Option (List HostStmt) :=
  (fillc c color (c.surfaceW * c.surfaceH)).map fun f =>
    setwin c 0x0000#16 (BitVec.ofNat 16 (c.surfaceW - 1)) 0x0000#16 (BitVec.ofNat 16 (c.surfaceH - 1)) ++ f

/-- HLINE of R79. -/
def hline (c : Config) (xs xe y color : Half) : Option (List HostStmt) :=
  windowAndFill c (lower xs xe) (upper xs xe) y y color (span (lower xs xe) (upper xs xe))

/-- VLINE of R79. -/
def vline (c : Config) (x ys ye color : Half) : Option (List HostStmt) :=
  windowAndFill c x x (lower ys ye) (upper ys ye) color (span (lower ys ye) (upper ys ye))

/-- RECT of R79. -/
def rect (c : Config) (xs xe ys ye color : Half) : Option (List HostStmt) :=
  windowAndFill c (lower xs xe) (upper xs xe) (lower ys ye) (upper ys ye) color
    (span (lower xs xe) (upper xs xe) * span (lower ys ye) (upper ys ye))

/-- InitRecord of R185, with `argCount` as the length of `args`. -/
structure InitRecord where
  delayMs : Byte
  command : Byte
  args : List Byte
  deriving DecidableEq, Repr

/-- Read `k` records of an init table (R185). A table whose counts do not match its bytes has no meaning. -/
def initRecords : Nat → List Byte → Option (List InitRecord)
  | 0, [] => some []
  | k + 1, n :: d :: c :: bytes =>
    if n.toNat ≤ bytes.length then
      (initRecords k (bytes.drop n.toNat)).map fun rs => ⟨d, c, bytes.take n.toNat⟩ :: rs
    else none
  | _, _ => none

/-- Read an init table: `recordCount` and then that many records, and nothing after them (R185). -/
def initTable : List Byte → Option (List InitRecord)
  | [] => none
  | k :: bytes => initRecords k.toNat bytes

/-- The bytes of one record in an init table (R185). -/
def recordBytes (r : InitRecord) : List Byte :=
  BitVec.ofNat 8 r.args.length :: r.delayMs :: r.command :: r.args

/-- The bytes of an init table (R185). -/
def tableBytes (rs : List InitRecord) : List Byte :=
  BitVec.ofNat 8 rs.length :: rs.flatMap recordBytes

/-- The host statements of one record (R186). -/
def runRecord (c : Config) (r : InitRecord) : List HostStmt :=
  [.wait, cmdStmt c (.sendCmd r.command)] ++
  r.args.flatMap (fun b => [.wait, cmdStmt c (.sendData8 b)]) ++
  [.wait, .delay r.delayMs]

/-- `runInit` of R186. A malformed table is refused (93_implementation_defined.md I1). -/
def runInit (c : Config) (t : List Byte) : Option (List HostStmt) :=
  (initTable t).map fun rs => rs.flatMap (runRecord c)

end Sys2Proof.Machine
end

