-- ==== Sys2Proof/Machine/Line.lean ====
section
/-! DEFINITION. What can be seen of the block from outside: the trace (R9, R32), the pins (R32), the serial line
(R61, R62), and the order of events on the bus (R95, R98). -/

namespace Sys2Proof.Machine

/-- Whether an event stands on the trace: the block's own events and `RST` (R32, R181), not the transport's `DONE`. -/
def Event.onTrace : Event → Bool
  | .cs _ => true
  | .dc _ => true
  | .xb _ => true
  | .xw _ => true
  | .done _ => false
  | .rst => true

/-- `trace` of R32: the ghost history of block events, with `RST` (R181). -/
def State.trace (s : State) : List Event := s.history.filter Event.onTrace

/-- Whether an event is a transfer request (R98). -/
def Event.isTransfer : Event → Bool
  | .xb _ => true
  | .xw _ => true
  | .cs _ => false
  | .dc _ => false
  | .done _ => false
  | .rst => false

/-- The level of the chip-select pin, true for high: `cs XOR CS_ACTIVE_LOW` (R32). -/
def State.csPin (s : State) : Bool := Bool.xor s.cs s.cfg.csActiveLow

/-- The level of the data/command pin, true for high (R32, R92). -/
def Dc.level : Dc → Bool
  | .cmd => false
  | .data => true

/-- The bytes a transfer puts on the serial line, first one first: a word goes high byte first (R61). -/
def Payload.lineBytes : Payload → List Byte
  | .byte b => [b]
  | .word w => [w.extractLsb' 8 8, w.extractLsb' 0 8]

/-- The bits of a byte on the serial line, first one first: bit 7 first and bit 0 last (R62). -/
def lineBits (b : Byte) : List Bool :=
  [b.getLsbD 7, b.getLsbD 6, b.getLsbD 5, b.getLsbD 4, b.getLsbD 3, b.getLsbD 2, b.getLsbD 1, b.getLsbD 0]

/-- The bits a transfer puts on the serial line, first one first (R62). -/
def Payload.lineBits (p : Payload) : List Bool := p.lineBytes.flatMap Sys2Proof.Machine.lineBits

/-- The bytes on the serial line of a list of events, each with the level of the data/command line that it was
sent under, starting from level `d`. A transfer counts with all of its bytes from its request on, also one that a reset
cuts off before its `DONE`: DESIGN CHOICE (assumption 18), since R181 leaves open how much of it goes out. -/
def serialLine (d : Dc) : List Event → List (Dc × Byte)
  | [] => []
  | .dc d' :: es => serialLine d' es
  | .xb b :: es => (Payload.byte b).lineBytes.map (fun x => (d, x)) ++ serialLine d es
  | .xw w :: es => (Payload.word w).lineBytes.map (fun x => (d, x)) ++ serialLine d es
  | .cs _ :: es => serialLine d es
  | .done _ :: es => serialLine d es
  | .rst :: es => serialLine d es

/-- The order of events that R95 allows on the bus, as a watcher of the events: from each position in a frame, the
one kind of event that may come next, and the position after it. `RST` may come anywhere (R181). -/
def busNext (p : Phase) (e : Event) : Option Phase :=
  match p, e with
  | _, .rst => some .pCs
  | .pCs, .cs true => some .pDc
  | .pDc, .dc _ => some .pXfer
  | .pXfer, .xb _ => some .pWait
  | .pXfer, .xw _ => some .pWait
  | .pWait, .done _ => some .pRel
  | .pRel, .cs false => some .pCs
  | _, _ => none

/-- The position a watcher that starts between frames is in after a list of events, if R95 allows them. -/
def busPhase (es : List Event) : Option Phase :=
  es.foldl (fun p e => p.bind (fun q => busNext q e)) (some .pCs)

end Sys2Proof.Machine
end

