-- ==== Sys2Proof/Safety.lean ====
section
/-! DEFINITION. What a safe run is (R172), and the invariant of the block's state (R31, R32, R95, R103). -/

namespace Sys2Proof.Machine

/-- No error so far that R172 (a), (b) and (c) name: no access got HostBusError, and OVR and ILL are 0. -/
def State.errorFree (s : State) : Bool :=
  !s.ovr && !s.ill && !s.hostLog.contains .busError

/-- Whether a host statement is a write that reaches STATUS and clears a sticky error (R26). -/
def HostStmt.clearsErrors (c : Config) : HostStmt → Bool
  | .access ⟨addr, width, .write v⟩ =>
    decide ((HostAccess.mk addr width (.write v)).target c = some .status) && (v.getLsbD 2 || v.getLsbD 3)
  | .access ⟨_, _, .read⟩ => false
  | .wait => false
  | .checkRange => false
  | .delay _ => false

/-- Whether a turn is a reset. -/
def Turn.isReset : Turn → Bool
  | .reset _ => true
  | .host => false
  | .sequencer => false
  | .transport _ => false

/-- The command that the next step accepts, if any: a CMD write with BUSY = 0 of a word that decodes (R90). -/
def State.accepts (s : State) : Option Instr :=
  match s.nextWrite with
  | some (.cmd, w) => if s.busy then none else decode w
  | _ => none

/-- Whether a host statement reads STATUS: a plain read of it, a poll of `WAIT`, or SETWIN's check (R77, R79). -/
def HostStmt.readsStatus (c : Config) : HostStmt → Bool
  | .access ⟨addr, width, .read⟩ =>
    inWindow c addr && decide ((HostAccess.mk addr width .read).target c = some .status)
  | .access ⟨_, _, .write _⟩ => false
  | .wait => true
  | .checkRange => true
  | .delay _ => false

/-- Whether the next step is a host read of STATUS. -/
def State.readsStatus (s : State) : Bool :=
  match s.turns, s.program with
  | .host :: _, st :: _ => st.readsStatus s.cfg
  | _, _ => false

/-- Whether the next step is a reset. -/
def State.resetsNext (s : State) : Bool := s.turns.head?.any Turn.isReset

/-- Whether, within the next `k` steps and before the next accept and the next reset, the host reads STATUS and finds
RERR = 0: the result of the operation accepted last is read back as success (R164, R172 (d), R189). -/
def readsBackSuccess : Nat → State → Bool
  | 0, _ => false
  | k + 1, s =>
    (s.readsStatus && !s.rerr) ||
    (s.accepts.isNone && !s.resetsNext &&
      match step s with
      | .next t => readsBackSuccess k t
      | .fault _ => false
      | .refused _ => false)

/-- R172 (d) at one step: if the next step accepts a SET_WINDOW that the program depends on, its result is read back as
success within the `k` steps that follow it. -/
def windowPassed (depends : Bool) (k : Nat) (s : State) : Bool :=
  !depends || !decide (s.accepts = some .setWindow) ||
  match step s with
  | .next t => readsBackSuccess k t
  | .fault _ => false
  | .refused _ => false

/-- The next `k` steps of the machine are error-free (R172): each of them answers a next state, (a) to (c) hold in every
state on the way, and (d) at every step. `depends j` says whether the program depends on the SET_WINDOW accepted at step
`j`, counted from 0; what a program depends on is the claim's to say, and `fun _ => true` takes every SET_WINDOW. -/
def errorFreeRun : (depends : Nat → Bool) → Nat → State → Bool
  | _, 0, s => s.errorFree
  | depends, k + 1, s =>
    s.errorFree && windowPassed (depends 0) k s &&
    match step s with
    | .next t => errorFreeRun (fun j => depends (j + 1)) k t
    | .fault _ => false
    | .refused _ => false

/-- Whether a turn lets a stalled transfer go on: the transport's, or a reset (R101). -/
def Turn.endsStall : Turn → Bool
  | .transport _ => true
  | .reset _ => true
  | .host => false
  | .sequencer => false

/-- The transfer request that is outstanding in a phase of a head frame (R32, R94). -/
def State.expectedReq (s : State) : Option Payload :=
  match s.phase, s.pending with
  | .pWait, f :: _ => some f.payload
  | _, _ => none

/-- Whether the head frame has driven the data/command line in a phase, and not yet released chip-select (R94). -/
def Phase.dcDriven : Phase → Bool
  | .pCs => false
  | .pDc => false
  | .pXfer => true
  | .pWait => true
  | .pRel => true

/-- The invariant of the block: it holds after power-on and every step keeps it. -/
structure Inv (s : State) : Prop where
  /-- "When `pending = []`, `phase = P_CS`" (R31). -/
  idle_phase : s.pending = [] → s.phase = .pCs
  /-- Chip-select is asserted exactly between `CS(1)` and `CS(0)` (R32, R94). -/
  cs_asserted : s.cs = true ↔ s.phase ≠ .pCs
  /-- The outstanding request is the head frame's, and only in `P_WAIT` (R32, R94, R96). -/
  req_head : s.req = s.expectedReq
  /-- The data/command line has the head frame's level from its `DC` event to its `CS(0)` (R95). -/
  dc_head : s.phase.dcDriven = true → ∀ f rest, s.pending = f :: rest → s.dc = f.dc
  /-- A command frame carries a byte (R92): no word is ever sent as a command. -/
  cmd_byte : ∀ f ∈ s.pending, f.dc = .cmd → ∃ b, f.payload = .byte b
  /-- "The list has length 0 to 65536" (R93). -/
  pending_length : s.pending.length ≤ 65536
  /-- RERR = 1 only when idle (R103). -/
  rerr_idle : s.rerr = true → s.pending = []
  /-- The events so far are in the order R95 allows, and end at this position in a frame. -/
  bus_order : busPhase s.history = some s.phase

end Sys2Proof.Machine
end

