-- ==== Sys2Proof/Certificates/Slice0/Obligations.lean ====
section
/-! DEFINITION. The statements for the provers, in the terms of the model. `s.turnNext t` is `s` with `t` the next turn
to be taken, and `s.hostNext st` is `s` with the host next to move and `st` its next statement: every state in which an
agent, or the host with a statement, is next to move is of that form. -/

open Sys2Proof Sys2Proof.Machine

/-! ## Encoding -/

/-- R72, R78: decoding and encoding are inverse to each other, over every command and every legal word. -/
def Obligations.DecodeEncodeAgree : Prop :=
  (∀ i : Instr, decode (encode i) = some i) ∧
  ∀ (w : Word) (i : Instr), decode w = some i → encode i = w

/-- R73: the rows of the opcode map decode to their commands, every legal word matches exactly one row, and there are
131585 legal words. -/
def Obligations.OpcodeMapIsExact : Prop :=
  (∀ w : Word,
    (w &&& 0xFFFFFF00#32 = 0x01000000#32 → decode w = some (.sendCmd (w.extractLsb' 0 8))) ∧
    (w &&& 0xFFFFFF00#32 = 0x02000000#32 → decode w = some (.sendData8 (w.extractLsb' 0 8))) ∧
    (w &&& 0xFFFF0000#32 = 0x03000000#32 → decode w = some (.sendData16 (w.extractLsb' 0 16))) ∧
    (w &&& 0xFFFFFFFF#32 = 0x04000000#32 → decode w = some .setWindow) ∧
    (w &&& 0xFFFF0000#32 = 0x05000000#32 → decode w = some (.fill (w.extractLsb' 0 16)))) ∧
  (∀ w : Word, (decode w).isSome = true →
    [(0x01000000#32, 0xFFFFFF00#32), (0x02000000#32, 0xFFFFFF00#32), (0x03000000#32, 0xFFFF0000#32),
     (0x04000000#32, 0xFFFFFFFF#32), (0x05000000#32, 0xFFFF0000#32)].countP
      (fun r : Word × Word => w &&& r.2 == r.1) = 1) ∧
  Nat.card {w : Word // (decode w).isSome = true} = 131585

/-- R74: which words are illegal, and what a CMD write of one does with BUSY = 0 and with BUSY = 1. -/
def Obligations.IllegalWordsAreDiscarded : Prop :=
  (∀ w : Word, decode w = none ↔
    (w.extractLsb' 24 8 = 0x00#8 ∨ 0x06 ≤ (w.extractLsb' 24 8).toNat) ∨
    w.extractLsb' 16 8 ≠ 0x00#8 ∨
    ((w.extractLsb' 24 8 = 0x01#8 ∨ w.extractLsb' 24 8 = 0x02#8) ∧ w.extractLsb' 8 8 ≠ 0x00#8) ∨
    (w.extractLsb' 24 8 = 0x04#8 ∧ w.extractLsb' 0 16 ≠ 0x0000#16)) ∧
  (∀ (w : Word) (s : State), decode w = none → s.pending = [] →
    step (s.hostNext (writeAt s.cfg 0x18 w)) = .next { s with ill := true, hostLog := s.hostLog ++ [.written] }) ∧
  (∀ (w : Word) (s : State), decode w = none → s.pending ≠ [] →
    step (s.hostNext (writeAt s.cfg 0x18 w)) = .next { s with ovr := true, hostLog := s.hostLog ++ [.written] }) ∧
  decode 0x00000000#32 = none

/-- Words written out from R72 and 95_test_vectors.md V1 to V14 decode as the spec says. -/
def Obligations.SampleWordsDecode : Prop :=
  decode 0x0100002A#32 = some (.sendCmd 0x2A#8) ∧ decode 0x01000100#32 = none ∧ decode 0x01010000#32 = none ∧
  decode 0x00000000#32 = none ∧ decode 0x06000000#32 = none ∧ decode 0xFF000000#32 = none ∧
  decode 0x04000001#32 = none ∧ decode 0x04000000#32 = some .setWindow ∧
  decode 0x020000FF#32 = some (.sendData8 0xFF#8) ∧ decode 0x0200FF00#32 = none ∧
  decode 0x0300FFFF#32 = some (.sendData16 0xFFFF#16) ∧ decode 0x05000000#32 = some (.fill 0x0000#16) ∧
  decode 0x0500FFFF#32 = some (.fill 0xFFFF#16) ∧ decode 0x05008000#32 = some (.fill 0x8000#16) ∧
  decode 0x0580000C#32 = none

/-- R78: the assembler refuses exactly the operands that do not fit, and otherwise the word is the operation code's
with the operand as written. -/
def Obligations.AssemblerRefusesWhatDoesNotFit : Prop :=
  (∀ c : AsmCmd, assemble c = none ↔
    (∃ b, c = .sendCmd b ∧ 256 ≤ b) ∨ (∃ b, c = .sendData8 b ∧ 256 ≤ b) ∨ (∃ w, c = .sendData16 w ∧ 65536 ≤ w) ∨
    ∃ n, c = .fill n ∧ 65536 ≤ n) ∧
  (∀ b i, assemble (.sendCmd b) = some i → (encode i).toNat = 0x01000000 + b) ∧
  (∀ b i, assemble (.sendData8 b) = some i → (encode i).toNat = 0x02000000 + b) ∧
  (∀ w i, assemble (.sendData16 w) = some i → (encode i).toNat = 0x03000000 + w) ∧
  (∀ i, assemble .setWindow = some i → (encode i).toNat = 0x04000000) ∧
  (∀ n i, assemble (.fill n) = some i → (encode i).toNat = 0x05000000 + n)

/-! ## The commands -/

/-- R90: when the host writes to CMD a word that decodes to a command, the step is that command's execution, in every
state, with the write recorded as taken. -/
def Obligations.StepRunsDecodedCommand : Prop :=
  ∀ (s : State) (w : Word) (i : Instr), decode w = some i →
    step (s.hostNext (writeAt s.cfg 0x18 w)) = exec i (s.logHost .written)

/-- R90: a CMD write is one step with its checks in order: an overrun with BUSY = 1, else an illegal word, else the
accept, which sets RERR, `pending` and `phase` and nothing else, emits no event, and makes BUSY read 1 when there is a
frame. -/
def Obligations.CommandPortAccepts : Prop :=
  ∀ (s : State) (w : Word),
    (s.pending ≠ [] → step (s.hostNext (writeAt s.cfg 0x18 w)) =
      .next { s with ovr := true, hostLog := s.hostLog ++ [.written] }) ∧
    (s.pending = [] → decode w = none → step (s.hostNext (writeAt s.cfg 0x18 w)) =
      .next { s with ill := true, hostLog := s.hostLog ++ [.written] }) ∧
    ∀ i, s.pending = [] → decode w = some i →
      ∃ t, step (s.hostNext (writeAt s.cfg 0x18 w)) = .next t ∧
        t = { s with rerr := rangeFail s.cfg i ⟨s.x0, s.x1, s.y0, s.y1, s.color⟩
                     pending := opFrames s.cfg i ⟨s.x0, s.x1, s.y0, s.y1, s.color⟩
                     phase := .pCs
                     hostLog := s.hostLog ++ [.written] } ∧
        (t.pending ≠ [] → t.statusWord.getLsbD 0 = true)

/-- How a word comes to run is the model's choice (assumption 7): the word that `withFetchWord` places, as the opcode
table numbers it, is read by the decoder and run by the very next step. -/
def Obligations.PlacedWordRunsNext : Prop :=
  ∀ (s : State) (nbits w : Nat) (i : Instr), decodeTableWord nbits w = some i →
    step (s.withFetchWord nbits w) = exec i (s.logHost .written)

/-- R110 to R113: with BUSY = 0 each framer command completes with its one frame pending, whatever the operand
registers hold. -/
def Obligations.FramerCommandsComplete : Prop :=
  ∀ s : State, s.pending = [] →
    (∀ b, exec (.sendCmd b) s = .next { s with rerr := false, pending := [⟨.cmd, .byte b⟩], phase := .pCs }) ∧
    (∀ b, exec (.sendData8 b) s = .next { s with rerr := false, pending := [⟨.data, .byte b⟩], phase := .pCs }) ∧
    (∀ w, exec (.sendData16 w) s = .next { s with rerr := false, pending := [⟨.data, .word w⟩], phase := .pCs })

/-- R120 to R122: with BUSY = 0, SET_WINDOW completes with RERR = 1 and no frame when the window is out of range, and
with its two command frames and four data-word frames otherwise. -/
def Obligations.WindowCommandCompletes : Prop :=
  ∀ s : State, s.pending = [] →
    ((s.x1.toNat < s.x0.toNat ∨ s.cfg.surfaceW ≤ s.x1.toNat ∨ s.y1.toNat < s.y0.toNat ∨
        s.cfg.surfaceH ≤ s.y1.toNat) →
      exec .setWindow s = .next { s with rerr := true, pending := [], phase := .pCs }) ∧
    (s.x0.toNat ≤ s.x1.toNat → s.x1.toNat < s.cfg.surfaceW → s.y0.toNat ≤ s.y1.toNat →
        s.y1.toNat < s.cfg.surfaceH →
      exec .setWindow s = .next { s with
        rerr := false, phase := .pCs
        pending := [⟨.cmd, .byte s.cfg.cmdCaset⟩, ⟨.data, .word s.x0⟩, ⟨.data, .word s.x1⟩,
          ⟨.cmd, .byte s.cfg.cmdRaset⟩, ⟨.data, .word s.y0⟩, ⟨.data, .word s.y1⟩] })

/-- R130: with BUSY = 0, FILL completes with the RAM-write command and `n` copies of COLOR pending. -/
def Obligations.FillCommandCompletes : Prop :=
  ∀ (n : Half) (s : State), s.pending = [] →
    exec (.fill n) s = .next { s with
      rerr := false, phase := .pCs
      pending := ⟨.cmd, .byte s.cfg.cmdRamwr⟩ :: List.replicate n.toNat ⟨.data, .word s.color⟩ }

/-- R90, R162: what a command leaves unchanged, for all five commands: the parameters, the operand registers, ILL,
chip-select, the data/command line, the request, the events, the host and the turns, always; OVR with BUSY = 0; and
with BUSY = 1 everything but OVR, which is 1. -/
def Obligations.CommandFrame : Prop :=
  ∀ (i : Instr) (s t : State), exec i s = .next t →
    (t.cfg = s.cfg ∧ t.x0 = s.x0 ∧ t.x1 = s.x1 ∧ t.y0 = s.y0 ∧ t.y1 = s.y1 ∧ t.color = s.color ∧ t.ill = s.ill ∧
      t.cs = s.cs ∧ t.dc = s.dc ∧ t.req = s.req ∧ t.history = s.history ∧ t.trace = s.trace ∧
      t.hostLog = s.hostLog ∧ t.program = s.program ∧ t.turns = s.turns) ∧
    (s.pending = [] → t.ovr = s.ovr) ∧
    (s.pending ≠ [] → t.ovr = true ∧ t.rerr = s.rerr ∧ t.pending = s.pending ∧ t.phase = s.phase)

/-- R162: a CMD write with BUSY = 1, whatever the word, has no effect except `OVR <- 1`, and the state is then not
error-free. -/
def Obligations.OverrunIsDropped : Prop :=
  ∀ (w : Word) (s : State), s.pending ≠ [] →
    ∃ t, step (s.hostNext (writeAt s.cfg 0x18 w)) = .next t ∧
      t = { s with ovr := true, hostLog := s.hostLog ++ [.written] } ∧ t.trace = s.trace ∧ t.errorFree = false

/-- R161: an illegal word has no effect except `ILL <- 1`; the host can tell that nothing started; and ILL stays set
across later commands. -/
def Obligations.IllegalWordOnlySetsIll : Prop :=
  (∀ (w : Word) (s : State), s.pending = [] → decode w = none →
    ∃ t, step (s.hostNext (writeAt s.cfg 0x18 w)) = .next t ∧
      t = { s with ill := true, hostLog := s.hostLog ++ [.written] } ∧
      t.statusWord.getLsbD 2 = true ∧ t.statusWord.getLsbD 0 = false) ∧
  ∀ (i : Instr) (s t : State), exec i s = .next t → s.ill = true → t.ill = true

/-- R120: the range check is false for every command but SET_WINDOW, where it is the four unsigned comparisons, and a
window that passes meets the window invariant. -/
def Obligations.RangeCheckIsFourComparisons : Prop :=
  (∀ (c : Config) (i : Instr) (k : Snapshot), rangeFail c i k = true ↔
    i = .setWindow ∧ (k.x0.toNat > k.x1.toNat ∨ k.x1.toNat ≥ c.surfaceW ∨ k.y0.toNat > k.y1.toNat ∨
      k.y1.toNat ≥ c.surfaceH)) ∧
  ∀ (c : Config) (k : Snapshot), rangeFail c .setWindow k = false →
    k.x0.toNat ≤ k.x1.toNat ∧ k.x1.toNat ≤ c.surfaceW - 1 ∧ k.y0.toNat ≤ k.y1.toNat ∧ k.y1.toNat ≤ c.surfaceH - 1 ∧
    k.x0.toNat < c.surfaceW ∧ k.y0.toNat < c.surfaceH

/-- R131: a FILL of count `n` has `n + 1` frames and `n + 1` transfer requests; the first frame is the RAM-write command
and every other one carries the snapshot's colour. -/
def Obligations.FillFrameCount : Prop :=
  ∀ (c : Config) (n : Half) (k : Snapshot),
    (opFrames c (.fill n) k).length = n.toNat + 1 ∧
    (((opFrames c (.fill n) k).flatMap Frame.events).filter Event.isTransfer).length = n.toNat + 1 ∧
    (opFrames c (.fill n) k).head? = some ⟨.cmd, .byte c.cmdRamwr⟩ ∧
    ∀ j f, 0 < j → (opFrames c (.fill n) k)[j]? = some f → f = ⟨.data, .word k.color⟩

/-- R92: a command frame carries a byte and drives the line low; every other frame drives it high. -/
def Obligations.DcLineTellsCommandFromData : Prop :=
  (∀ (c : Config) (i : Instr) (k : Snapshot), ∀ f ∈ opFrames c i k,
    (f.dc = .cmd → f.dc.level = false ∧ ∃ b, f.payload = .byte b) ∧ (f.dc = .data → f.dc.level = true)) ∧
  ∀ (c : Config) (k : Snapshot),
    (∀ b, opFrames c (.sendCmd b) k = [⟨.cmd, .byte b⟩]) ∧
    (∀ b, opFrames c (.sendData8 b) k = [⟨.data, .byte b⟩]) ∧
    (∀ w, opFrames c (.sendData16 w) k = [⟨.data, .word w⟩])

/-- R60, R91: the accepted operation is a function of the command, the parameters and the snapshot alone, and no later
write to an operand register changes it. -/
def Obligations.OperationDependsOnSnapshotAlone : Prop :=
  (∀ (i : Instr) (s s' t t' : State), s.pending = [] → s'.pending = [] → s.cfg = s'.cfg →
    s.snapshot = s'.snapshot → exec i s = .next t → exec i s' = .next t' →
    t.pending = t'.pending ∧ t.phase = t'.phase ∧ t.rerr = t'.rerr) ∧
  ∀ (s : State) (v : Word), ∀ off ∈ [0x04, 0x08, 0x0C, 0x10, 0x14],
    ∃ t, step (s.hostNext (writeAt s.cfg off v)) = .next t ∧
      t.pending = s.pending ∧ t.phase = s.phase ∧ t.rerr = s.rerr ∧ t.history = s.history

/-! ## The register window -/

/-- R26: what a write to STATUS clears, what it leaves, and the word that a read returns. -/
def Obligations.StatusRegister : Prop :=
  ∀ s : State,
    (∀ v : Word, step (s.hostNext (writeAt s.cfg 0x00 v)) = .next { s with
      ill := if v.getLsbD 2 then false else s.ill
      ovr := if v.getLsbD 3 then false else s.ovr
      hostLog := s.hostLog ++ [.written] }) ∧
    ∃ v : Word, step (s.hostNext (readAt s.cfg 0x00)) = .next { s with hostLog := s.hostLog ++ [.readData v] } ∧
      (v.getLsbD 0 = true ↔ s.pending ≠ []) ∧ v.getLsbD 1 = s.rerr ∧ v.getLsbD 2 = s.ill ∧ v.getLsbD 3 = s.ovr ∧
      ∀ j, 4 ≤ j → v.getLsbD j = false

/-- R27: each operand register takes the low 16 bits of a write at any time and nothing else changes; a read returns
the value zero-extended; and the reset value is 0. -/
def Obligations.OperandRegisters : Prop :=
  (∀ (s : State) (v : Word),
    step (s.hostNext (writeAt s.cfg 0x04 v)) =
      .next { s with x0 := v.extractLsb' 0 16, hostLog := s.hostLog ++ [.written] } ∧
    step (s.hostNext (writeAt s.cfg 0x08 v)) =
      .next { s with x1 := v.extractLsb' 0 16, hostLog := s.hostLog ++ [.written] } ∧
    step (s.hostNext (writeAt s.cfg 0x0C v)) =
      .next { s with y0 := v.extractLsb' 0 16, hostLog := s.hostLog ++ [.written] } ∧
    step (s.hostNext (writeAt s.cfg 0x10 v)) =
      .next { s with y1 := v.extractLsb' 0 16, hostLog := s.hostLog ++ [.written] } ∧
    step (s.hostNext (writeAt s.cfg 0x14 v)) =
      .next { s with color := v.extractLsb' 0 16, hostLog := s.hostLog ++ [.written] }) ∧
  (∀ s : State,
    step (s.hostNext (readAt s.cfg 0x04)) =
      .next { s with hostLog := s.hostLog ++ [.readData (s.x0.setWidth 32)] } ∧
    step (s.hostNext (readAt s.cfg 0x08)) =
      .next { s with hostLog := s.hostLog ++ [.readData (s.x1.setWidth 32)] } ∧
    step (s.hostNext (readAt s.cfg 0x0C)) =
      .next { s with hostLog := s.hostLog ++ [.readData (s.y0.setWidth 32)] } ∧
    step (s.hostNext (readAt s.cfg 0x10)) =
      .next { s with hostLog := s.hostLog ++ [.readData (s.y1.setWidth 32)] } ∧
    step (s.hostNext (readAt s.cfg 0x14)) =
      .next { s with hostLog := s.hostLog ++ [.readData (s.color.setWidth 32)] }) ∧
  ∀ (c : Config) (d : Dc),
    (State.powerOn c d).x0 = 0#16 ∧ (State.powerOn c d).x1 = 0#16 ∧ (State.powerOn c d).y0 = 0#16 ∧
    (State.powerOn c d).y1 = 0#16 ∧ (State.powerOn c d).color = 0#16

/-- R28: a read of CMD returns 0 and does nothing else; a write is the accept of R90; and CMD keeps no copy of the
word: two words that decode alike leave the same state. -/
def Obligations.CommandPortIsWriteOnly : Prop :=
  (∀ s : State, step (s.hostNext (readAt s.cfg 0x18)) =
    .next { s with hostLog := s.hostLog ++ [.readData 0x00000000#32] }) ∧
  (∀ (s : State) (w : Word), step (s.hostNext (writeAt s.cfg 0x18 w)) = writeCmd w (s.logHost .written)) ∧
  ∀ (s : State) (w w' : Word), decode w = decode w' →
    step (s.hostNext (writeAt s.cfg 0x18 w)) = step (s.hostNext (writeAt s.cfg 0x18 w'))

/-- R29: the reserved word, and the reserved bits of STATUS and of the operand registers, read as 0 and ignore
writes. -/
def Obligations.ReservedReadsZeroIgnoresWrites : Prop :=
  (∀ (s : State) (v : Word), step (s.hostNext (writeAt s.cfg 0x1C v)) =
    .next { s with hostLog := s.hostLog ++ [.written] }) ∧
  (∀ s : State, step (s.hostNext (readAt s.cfg 0x1C)) =
    .next { s with hostLog := s.hostLog ++ [.readData 0x00000000#32] }) ∧
  (∀ (s : State) (v v' : Word), v.getLsbD 2 = v'.getLsbD 2 → v.getLsbD 3 = v'.getLsbD 3 →
    step (s.hostNext (writeAt s.cfg 0x00 v)) = step (s.hostNext (writeAt s.cfg 0x00 v'))) ∧
  (∀ (s : State) (v v' : Word), (∀ j < 16, v.getLsbD j = v'.getLsbD j) →
    ∀ off ∈ [0x04, 0x08, 0x0C, 0x10, 0x14],
      step (s.hostNext (writeAt s.cfg off v)) = step (s.hostNext (writeAt s.cfg off v'))) ∧
  ∀ (s t : State) (v : Word), ∀ off ∈ [0x00, 0x04, 0x08, 0x0C, 0x10, 0x14],
    step (s.hostNext (readAt s.cfg off)) = .next t → t.hostLog = s.hostLog ++ [.readData v] →
    (off = 0x00 → ∀ j, 4 ≤ j → v.getLsbD j = false) ∧ ∀ j, 16 ≤ j → v.getLsbD j = false

/-- R53: a read of any register changes nothing and is idempotent; a second equal write to STATUS changes nothing; and
every write of a command to CMD with BUSY = 0 starts its operation, whatever was written before. -/
def Obligations.ReadsHaveNoSideEffect : Prop :=
  (∀ (r : Reg) (s : State), ∃ v : Word,
    step (s.hostNext (readAt s.cfg r.offset)) = .next (s.logHost (.readData v)) ∧
    step ((s.logHost (.readData v)).hostNext (readAt s.cfg r.offset)) =
      .next ((s.logHost (.readData v)).logHost (.readData v))) ∧
  (∀ (s t : State) (v : Word), step (s.hostNext (writeAt s.cfg 0x00 v)) = .next t →
    step (t.hostNext (writeAt t.cfg 0x00 v)) = .next (t.logHost .written)) ∧
  ∀ (s : State) (w : Word) (i : Instr), decode w = some i → s.pending = [] →
    ∃ t, step (s.hostNext (writeAt s.cfg 0x18 w)) = .next t ∧ t.pending = opFrames s.cfg i s.snapshot

/-- R51, R163: an access in the window that is not 32 bits wide, or whose address is no multiple of 4, gets the error
response and changes no state. -/
def Obligations.BadAccessGetsBusError : Prop :=
  ∀ (s : State) (a : HostAccess), s.cfg.base ≤ a.addr → a.addr ≤ s.cfg.base + 0x1F →
    (a.width ≠ 32 ∨ a.addr % 4 ≠ 0) →
    step (s.hostNext (.access a)) = .next { s with hostLog := s.hostLog ++ [.busError] }

/-- R50, R51, and the model's choice (assumption 8): an access whose address is outside the window is no access to this
block, and the machine stops; every access inside it is answered. -/
def Obligations.OnlyTheWindowAnswers : Prop :=
  ∀ (s : State) (a : HostAccess),
    ((a.addr < s.cfg.base ∨ s.cfg.base + 0x20 ≤ a.addr) →
      step (s.hostNext (.access a)) = .fault .outsideWindow) ∧
    (s.cfg.base ≤ a.addr → a.addr ≤ s.cfg.base + 0x1F → ∃ t, step (s.hostNext (.access a)) = .next t)

/-- R167: an access in the window raises at most one error, in the order HostBusError, CommandOverrun, IllegalCommand,
RangeError, and the state records that error and no other. -/
def Obligations.AtMostOneErrorPerAccess : Prop :=
  (∀ (s : State) (w : Word),
    (accessError ⟨s.cfg.base + 0x18, 32, .write w⟩ s = some .commandOverrun ↔ s.pending ≠ []) ∧
    (accessError ⟨s.cfg.base + 0x18, 32, .write w⟩ s = some .illegalCommand ↔ s.pending = [] ∧ decode w = none) ∧
    (accessError ⟨s.cfg.base + 0x18, 32, .write w⟩ s = some .rangeError ↔
      s.pending = [] ∧ decode w = some .setWindow ∧ rangeFail s.cfg .setWindow s.snapshot = true)) ∧
  ∀ (a : HostAccess) (s t : State), inWindow s.cfg a.addr = true → step (s.hostNext (.access a)) = .next t →
    (accessError a s = some .hostBusError ↔ a.width ≠ 32 ∨ a.addr % 4 ≠ 0) ∧
    (accessError a s = some .hostBusError → t = s.logHost .busError) ∧
    (accessError a s = some .commandOverrun → s.pending ≠ [] ∧ t = { s.logHost .written with ovr := true }) ∧
    (accessError a s = some .illegalCommand → s.pending = [] ∧ t = { s.logHost .written with ill := true }) ∧
    (accessError a s = some .rangeError →
      s.pending = [] ∧ t = { s.logHost .written with rerr := true, pending := [], phase := .pCs }) ∧
    (accessError a s = none →
      (t.ill = true → s.ill = true) ∧ (t.ovr = true → s.ovr = true) ∧ (t.rerr = true → s.rerr = true) ∧
      .busError ∉ t.hostLog.drop s.hostLog.length)

/-- R23: RERR is written at every accept with the result of the range check, a discarded word leaves it unchanged, and
nothing else changes it but a reset. -/
def Obligations.RerrHoldsLastResult : Prop :=
  (∀ (i : Instr) (s : State), s.pending = [] → ∃ t, exec i s = .next t ∧
    (t.rerr = true ↔ i = .setWindow ∧ (s.x1.toNat < s.x0.toNat ∨ s.cfg.surfaceW ≤ s.x1.toNat ∨
      s.y1.toNat < s.y0.toNat ∨ s.cfg.surfaceH ≤ s.y1.toNat))) ∧
  (∀ (w : Word) (s : State), s.pending ≠ [] ∨ decode w = none →
    ∃ t, step (s.hostNext (writeAt s.cfg 0x18 w)) = .next t ∧ t.rerr = s.rerr) ∧
  ∀ s t : State, step s = .next t → t.rerr ≠ s.rerr →
    (∃ d ts, s.turns = .reset d :: ts) ∨
    (s.pending = [] ∧ ∃ w i, s.nextWrite = some (.cmd, w) ∧ decode w = some i)

/-- R24: ILL is set exactly by a CMD write of an illegal word with BUSY = 0, which is discarded, and stays 1 until the
host clears it or a reset occurs. -/
def Obligations.IllSetAndCleared : Prop :=
  ∀ s t : State, step s = .next t →
    (∀ w, s.nextWrite = some (.cmd, w) → decode w = none → s.pending = [] →
      t.ill = true ∧ t.pending = [] ∧ t.history = s.history ∧ t.rerr = s.rerr ∧ t.ovr = s.ovr) ∧
    (s.ill = false → t.ill = true →
      s.pending = [] ∧ ∃ w, s.nextWrite = some (.cmd, w) ∧ decode w = none) ∧
    (s.ill = true → t.ill = false →
      (∃ v, s.nextWrite = some (.status, v) ∧ v.getLsbD 2 = true) ∨ ∃ d ts, s.turns = .reset d :: ts)

/-- R25: OVR is set exactly by a CMD write with BUSY = 1, whatever the word, which is not decoded and leaves the
operation as it is; and it stays 1 until the host clears it or a reset occurs. -/
def Obligations.OvrSetAndCleared : Prop :=
  ∀ s t : State, step s = .next t →
    (∀ w, s.nextWrite = some (.cmd, w) → s.pending ≠ [] →
      t.ovr = true ∧ t.ill = s.ill ∧ t.rerr = s.rerr ∧ t.pending = s.pending ∧ t.phase = s.phase ∧ t.cs = s.cs ∧
      t.dc = s.dc ∧ t.req = s.req ∧ t.history = s.history) ∧
    (s.ovr = false → t.ovr = true → s.pending ≠ [] ∧ ∃ w, s.nextWrite = some (.cmd, w)) ∧
    (s.ovr = true → t.ovr = false →
      (∃ v, s.nextWrite = some (.status, v) ∧ v.getLsbD 3 = true) ∨ ∃ d ts, s.turns = .reset d :: ts)

/-- R22: BUSY reads 1 exactly when `pending` is not empty; it rises at the accept of an operation with a frame, and only
there; it falls at the sequencer step that emits the last frame's `CS(0)`, and only there or at a reset; and a SET_WINDOW
that fails its range check does not make it 1. -/
def Obligations.BusyRisesAndFalls : Prop :=
  (∀ s : State, s.statusWord.getLsbD 0 = true ↔ s.pending ≠ []) ∧
  (∀ s t : State, step s = .next t → s.pending = [] → t.pending ≠ [] →
    ∃ w i, s.nextWrite = some (.cmd, w) ∧ decode w = some i ∧ opFrames s.cfg i s.snapshot ≠ []) ∧
  (∀ s t : State, step s = .next t → s.pending ≠ [] → t.pending = [] →
    ((∃ ts, s.turns = .sequencer :: ts) ∧ s.phase = .pRel ∧ s.pending.length = 1 ∧
      t.history = s.history ++ [.cs false] ∧ t.cs = false) ∨
    ∃ d ts, s.turns = .reset d :: ts) ∧
  (∀ (s : State) (w : Word) (i : Instr), s.pending = [] → decode w = some i → opFrames s.cfg i s.snapshot ≠ [] →
    ∃ t, step (s.hostNext (writeAt s.cfg 0x18 w)) = .next t ∧ t.statusWord.getLsbD 0 = true) ∧
  (∀ s : State, s.phase = .pRel → s.pending.length = 1 →
    ∃ t, step (s.turnNext .sequencer) = .next t ∧ t.history = s.history ++ [.cs false] ∧
      t.statusWord.getLsbD 0 = false) ∧
  ∀ s t : State, s.pending = [] → rangeFail s.cfg .setWindow s.snapshot = true → exec .setWindow s = .next t →
    t.statusWord.getLsbD 0 = false

/-! ## The sequencer and the transport -/

/-- R94: the sequencer's step in each phase; it has none in `P_WAIT` or when idle (its turn then passes, assumption 3);
and what it emits is appended to the trace. -/
def Obligations.SequencerSteps : Prop :=
  (∀ (s : State) (f : Frame) (rest : List Frame), s.pending = f :: rest →
    (s.phase = .pCs → step (s.turnNext .sequencer) =
      .next { s with history := s.history ++ [.cs true], cs := true, phase := .pDc }) ∧
    (s.phase = .pDc → step (s.turnNext .sequencer) =
      .next { s with history := s.history ++ [.dc f.dc], dc := f.dc, phase := .pXfer }) ∧
    (∀ b, s.phase = .pXfer → f.payload = .byte b → step (s.turnNext .sequencer) =
      .next { s with history := s.history ++ [.xb b], req := some (.byte b), phase := .pWait }) ∧
    (∀ w, s.phase = .pXfer → f.payload = .word w → step (s.turnNext .sequencer) =
      .next { s with history := s.history ++ [.xw w], req := some (.word w), phase := .pWait }) ∧
    (s.phase = .pRel → step (s.turnNext .sequencer) =
      .next { s with history := s.history ++ [.cs false], cs := false, pending := rest, phase := .pCs })) ∧
  (∀ s : State, s.phase = .pWait ∨ s.pending = [] → step (s.turnNext .sequencer) = .next s) ∧
  ∀ s t : State, step (s.turnNext .sequencer) = .next t →
    ∃ es, t.history = s.history ++ es ∧ t.trace = s.trace ++ es ∧ es.length ≤ 1

/-- R96: the transport's `DONE(r)`, with `r` any byte for a byte transfer and any word for a word transfer; `r` reaches
nothing but the ghost history; without a request the transport has no step (its turn then passes, assumption 3); and no
new request is made until `DONE`. -/
def Obligations.TransportHandshake : Prop :=
  (∀ (s : State) (p : Payload) (r : Half), s.req = some p → step (s.turnNext (.transport r)) =
    .next { s with history := s.history ++ [.done (p.received r)], req := none, phase := .pRel }) ∧
  (∀ b : Byte, (∀ r, ∃ x, (Payload.byte b).received r = .byte x) ∧ ∀ x, ∃ r, (Payload.byte b).received r = .byte x) ∧
  (∀ w : Half, (∀ r, ∃ x, (Payload.word w).received r = .word x) ∧ ∀ x, ∃ r, (Payload.word w).received r = .word x) ∧
  (∀ (s t t' : State) (r r' : Half), step (s.turnNext (.transport r)) = .next t →
    step (s.turnNext (.transport r')) = .next t' → t' = { t with history := t'.history } ∧ t'.trace = t.trace) ∧
  (∀ (s : State) (r : Half), s.req = none → step (s.turnNext (.transport r)) = .next s) ∧
  ∀ (s t : State) (p : Payload), Inv s → s.req = some p → (∀ u ∈ s.turns.head?, u.endsStall = false) →
    step s = .next t → t.req = some p ∧ t.trace = s.trace

/-- R101: while the transport takes no turn and no reset occurs, a requested transfer stays outstanding for any number
of steps: chip-select stays asserted, BUSY stays 1, nothing is emitted, every CMD write sets OVR, and a reset ends it. It
is a hang and no fault: the sequencer may be offered its turn any number of times. -/
def Obligations.StallLastsUntilReset : Prop :=
  (∀ (k : Nat) (s t : State), Inv s → s.phase = .pWait → (∀ u ∈ s.turns.take k, u.endsStall = false) →
    Sys2Proof.core.run k s = .next t →
    t.phase = .pWait ∧ t.cs = true ∧ t.statusWord.getLsbD 0 = true ∧ t.pending = s.pending ∧ t.req = s.req ∧
    t.trace = s.trace ∧
    (∀ w : Word, step (t.hostNext (writeAt t.cfg 0x18 w)) =
      .next { t with ovr := true, hostLog := t.hostLog ++ [.written] }) ∧
    ∀ d, ∃ u, step (t.turnNext (.reset d)) = .next u ∧ u.pending = [] ∧ u.phase = .pCs ∧ u.cs = false) ∧
  ∀ (k : Nat) (s : State), s.phase = .pWait → (∀ u ∈ s.turns.take k, u = .sequencer) →
    ∃ t, Sys2Proof.core.run k s = .next t ∧ t.phase = .pWait

/-- R99: the block drives `dc` only in phase `P_DC`, to the head frame's level; otherwise it keeps the level last
driven, but for a reset, which leaves either level (a free value drawn from its turn, assumption 5). -/
def Obligations.DcDrivenOnlyInItsPhase : Prop :=
  (∀ s t : State, step s = .next t → t.dc ≠ s.dc →
    (s.phase = .pDc ∧ (∃ ts, s.turns = .sequencer :: ts) ∧ ∃ f rest, s.pending = f :: rest ∧ t.dc = f.dc) ∨
    ∃ ts, s.turns = .reset t.dc :: ts) ∧
  ∀ (s : State) (d : Dc), ∃ t, step (s.turnNext (.reset d)) = .next t ∧ t.dc = d

/-- The invariant (R31, R32, R93, R95, R103) holds after power-on, for every parameter value and either level of the
data/command line. -/
def Obligations.PowerOnMeetsInvariant : Prop :=
  (∀ (c : Config) (d : Dc), Inv (State.powerOn c d)) ∧ Inv State.reset

/-- Every step keeps the invariant: idle means `P_CS`; chip-select is asserted exactly inside a frame; the outstanding
request and the data/command line are the head frame's; no word is sent as a command; at most 65536 frames; RERR = 1 only
when idle; and the events stand in the order R95 allows. -/
def Obligations.StepKeepsInvariant : Prop :=
  ∀ s t : State, Inv s → step s = .next t → Inv t

/-- R98: between any two transfer requests of the whole history, chip-select is released, by its `CS(0)` or by a
reset; and each transfer request directly follows the `CS(1)` and the `DC` of its own frame. -/
def Obligations.OneTransferPerChipSelect : Prop :=
  ∀ s : State, Inv s →
    (∀ (before between after : List Event) (e e' : Event),
      s.history = before ++ e :: between ++ e' :: after → e.isTransfer = true → e'.isTransfer = true →
      .cs false ∈ between ∨ .rst ∈ between) ∧
    ∀ (before after : List Event) (e : Event), s.history = before ++ e :: after → e.isTransfer = true →
      ∃ earlier d, before = earlier ++ [.cs true, .dc d]

/-- R95, R100: a step that is no reset leaves the events emitted so far, followed by those the operation still has to
emit, as they are, unless it accepts a command, which needs an idle block and adds that command's frames at the end. So
the frames of an operation stand on the trace whole, in order and not mixed with another's. -/
def Obligations.FramesAppearInAcceptOrder : Prop :=
  ∀ s t : State, Inv s → (∀ u ∈ s.turns.head?, u.isReset = false) → step s = .next t →
    t.trace ++ t.remaining = s.trace ++ s.remaining ∨
    (s.pending = [] ∧ s.remaining = [] ∧ t.trace = s.trace ∧
      ∃ w i, s.nextWrite = some (.cmd, w) ∧ decode w = some i ∧
        t.remaining = (opFrames s.cfg i s.snapshot).flatMap Frame.events)

/-- R97, R102: when the sequencer and the transport take their turns, the operation in progress completes: its frames
are on the trace whole and in order, chip-select is released, BUSY is 0, and nothing else has changed but the
data/command line and the history. The fairness of R102 is a schedule here (assumption 15). -/
def Obligations.OperationCompletes : Prop :=
  ∀ (s : State) (rs : List Half) (ts : List Turn), Inv s → s.phase = .pCs → rs.length = s.pending.length →
    s.turns = rs.flatMap (fun r => [.sequencer, .sequencer, .sequencer, .transport r, .sequencer]) ++ ts →
    ∃ t, Sys2Proof.core.run (5 * s.pending.length) s = .next t ∧
      t = { s with pending := [], dc := t.dc, history := t.history, turns := ts } ∧
      t.trace = s.trace ++ s.pending.flatMap Frame.events ∧ t.cs = false ∧ t.statusWord.getLsbD 0 = false

/-- R102: while an operation runs, exactly one of the sequencer and the transport has a step; that step brings the
operation one nearer to its end, and no other turn but a reset changes the distance. -/
def Obligations.EveryTurnOfItsAgentIsProgress : Prop :=
  (∀ s : State, s.stepsLeft = 0 ↔ s.pending = []) ∧
  ∀ s : State, Inv s → s.pending ≠ [] →
    (s.phase = .pWait ↔ s.req ≠ none) ∧
    (∀ t, s.phase ≠ .pWait → step (s.turnNext .sequencer) = .next t → t.stepsLeft + 1 = s.stepsLeft) ∧
    (∀ t r, s.phase = .pWait → step (s.turnNext (.transport r)) = .next t → t.stepsLeft + 1 = s.stepsLeft) ∧
    (∀ t, s.phase = .pWait → step (s.turnNext .sequencer) = .next t → t.stepsLeft = s.stepsLeft) ∧
    (∀ t r, s.phase ≠ .pWait → step (s.turnNext (.transport r)) = .next t → t.stepsLeft = s.stepsLeft) ∧
    ∀ t ts, s.turns = .host :: ts → step s = .next t → t.stepsLeft = s.stepsLeft

/-- R103: while an operation runs, the host reads BUSY = 1 and RERR = 0; its writes to operand registers and to STATUS
have their normal effect; its write to CMD sets OVR; and no host step changes the operation, the lines, the request or
the events. -/
def Obligations.HostCannotDisturbOperation : Prop :=
  ∀ s : State, Inv s → s.pending ≠ [] →
    (s.statusWord.getLsbD 0 = true ∧ s.statusWord.getLsbD 1 = false ∧
      step (s.hostNext (readAt s.cfg 0x00)) = .next (s.logHost (.readData s.statusWord))) ∧
    (∀ v : Word,
      step (s.hostNext (writeAt s.cfg 0x00 v)) = .next (State.writeStatus v (s.logHost .written)) ∧
      step (s.hostNext (writeAt s.cfg 0x04 v)) = .next { s.logHost .written with x0 := v.extractLsb' 0 16 } ∧
      step (s.hostNext (writeAt s.cfg 0x08 v)) = .next { s.logHost .written with x1 := v.extractLsb' 0 16 } ∧
      step (s.hostNext (writeAt s.cfg 0x0C v)) = .next { s.logHost .written with y0 := v.extractLsb' 0 16 } ∧
      step (s.hostNext (writeAt s.cfg 0x10 v)) = .next { s.logHost .written with y1 := v.extractLsb' 0 16 } ∧
      step (s.hostNext (writeAt s.cfg 0x14 v)) = .next { s.logHost .written with color := v.extractLsb' 0 16 } ∧
      step (s.hostNext (writeAt s.cfg 0x18 v)) = .next { s.logHost .written with ovr := true }) ∧
    ∀ (t : State) (ts : List Turn), s.turns = .host :: ts → step s = .next t →
      t.cfg = s.cfg ∧ t.pending = s.pending ∧ t.phase = s.phase ∧ t.cs = s.cs ∧ t.dc = s.dc ∧ t.req = s.req ∧
      t.history = s.history ∧ t.rerr = s.rerr ∧ t.turns = ts

/-! ## Reset, parameters and whole-machine rules -/

/-- R180: a reset at any time is one step that puts every piece of state to its value of R35, with `dc` either level;
at power-on the trace is empty too. -/
def Obligations.ResetReturnsEveryPieceOfState : Prop :=
  (∀ (s : State) (d : Dc), ∃ t, step (s.turnNext (.reset d)) = .next t ∧
    t.statusWord = 0x00000000#32 ∧ t.rerr = false ∧ t.ill = false ∧ t.ovr = false ∧
    t.x0 = 0#16 ∧ t.x1 = 0#16 ∧ t.y0 = 0#16 ∧ t.y1 = 0#16 ∧ t.color = 0#16 ∧ t.pending = [] ∧ t.phase = .pCs ∧
    t.cs = false ∧ t.req = none ∧ t.dc = d) ∧
  ∀ (c : Config) (d : Dc),
    (State.powerOn c d).statusWord = 0x00000000#32 ∧ (State.powerOn c d).x0 = 0#16 ∧ (State.powerOn c d).x1 = 0#16 ∧
    (State.powerOn c d).y0 = 0#16 ∧ (State.powerOn c d).y1 = 0#16 ∧ (State.powerOn c d).color = 0#16 ∧
    (State.powerOn c d).pending = [] ∧ (State.powerOn c d).phase = .pCs ∧ (State.powerOn c d).cs = false ∧
    (State.powerOn c d).req = none ∧ (State.powerOn c d).trace = []

/-- R181: a reset during an operation abandons it: `RST` alone is appended to the trace, nothing is left to emit, the
chip-select pin is at its released level, and the transport's turn is then no step (it passes, assumption 3); a reset of
an idle block changes only the registers and `dc`. -/
def Obligations.ResetAbandonsOperation : Prop :=
  (∀ (s t : State) (d : Dc), step (s.turnNext (.reset d)) = .next t →
    t.trace = s.trace ++ [.rst] ∧ t.history = s.history ++ [.rst] ∧ t.pending = [] ∧ t.remaining = [] ∧
    t.cs = false ∧ t.csPin = t.cfg.csActiveLow ∧ t.req = none ∧
    (∀ r, step (t.turnNext (.transport r)) = .next t) ∧ step (t.turnNext .sequencer) = .next t) ∧
  ∀ (s t : State) (d : Dc), Inv s → s.pending = [] → step (s.turnNext (.reset d)) = .next t →
    t = { s with rerr := false, ill := false, ovr := false, x0 := 0#16, x1 := 0#16, y0 := 0#16, y1 := 0#16,
                 color := 0#16, dc := d, history := s.history ++ [.rst] }

/-- R182: an idle block emits no event, and stays idle, until a command is accepted. -/
def Obligations.IdleBlockEmitsNothing : Prop :=
  (∀ (c : Config) (d : Dc), (State.powerOn c d).statusWord.getLsbD 0 = false) ∧
  ∀ s t : State, Inv s → s.pending = [] → step s = .next t →
    (t.history = s.history ∨ ∃ d ts, s.turns = .reset d :: ts) ∧
    (t.pending = [] ∨ ∃ w i, s.nextWrite = some (.cmd, w) ∧ decode w = some i)

/-- R5: the parameters are fixed: no step changes one. They are carried in State by the model's choice (assumption 1). -/
def Obligations.ParametersNeverChange : Prop :=
  ∀ (k : Nat) (s t : State), Sys2Proof.core.run k s = .next t → t.cfg = s.cfg

/-- R172: over any run without a reset and in which the host clears no sticky error, a final STATUS with bits [3:2] = 0
shows that neither ILL nor OVR was set in any state of the run. -/
def Obligations.FinalStatusShowsIllAndOvrNeverSet : Prop :=
  ∀ (k : Nat) (s t : State), Sys2Proof.core.run k s = .next t → (∀ u ∈ s.turns.take k, u.isReset = false) →
    (∀ st ∈ s.program, st.clearsErrors s.cfg = false) →
    t.statusWord.getLsbD 2 = false → t.statusWord.getLsbD 3 = false →
    ∀ j ≤ k, ∃ u, Sys2Proof.core.run j s = .next u ∧ u.ill = false ∧ u.ovr = false

/-! ## Outside the registers: pins, serial line, host programs -/

/-- R61, R62: a word is one transfer under one chip-select assertion, and goes on the line high byte first; bits go most
significant first, in a byte by the spec's own choice (assumption 11). That a requested transfer counts whole on the line,
also when a reset follows it, is the model's choice (assumption 18). -/
def Obligations.SerialLineIsMsbFirst : Prop :=
  (∀ w : Half, (frameD16 w).events = [.cs true, .dc .data, .xw w, .cs false]) ∧
  (∀ (w : Half) (d : Dc) (es : List Event), serialLine d (.xw w :: es) =
    (d, w.extractLsb' 8 8) :: (d, w.extractLsb' 0 8) :: serialLine d es) ∧
  (∀ (b : Byte) (j : Nat), j < 8 → (Payload.byte b).lineBits[j]? = some (b.getLsbD (7 - j))) ∧
  (∀ (w : Half) (j : Nat), j < 16 → (Payload.word w).lineBits[j]? = some (w.getLsbD (15 - j))) ∧
  ∀ (a b : Byte) (d : Dc), serialLine d (frameD16 (a ++ b)).events =
    serialLine d ((frameD8 a).events ++ (frameD8 b).events)

/-- R32: the chip-select pin is `cs XOR CS_ACTIVE_LOW`, so with `CS_ACTIVE_LOW` an asserted chip-select is a low pin;
the data/command pin is low for a command and high for data. -/
def Obligations.OutputPins : Prop :=
  (∀ s : State, s.cfg.csActiveLow = true → (s.csPin = false ↔ s.cs = true)) ∧
  (∀ s : State, s.cfg.csActiveLow = false → (s.csPin = true ↔ s.cs = true)) ∧
  ∀ d : Dc, d.level = true ↔ d = .data

/-- R58, R79: `WAIT` polls until STATUS[0] reads 0, and SETWIN's check stops with RangeError when STATUS[1] reads 1; both
change nothing in the block. R79 says only "stop with RangeError": that the stop ends the whole host program
(`program := []`) is the model's choice (assumption 16). -/
def Obligations.HostPollStatements : Prop :=
  ∀ s : State,
    (s.pending ≠ [] → step (s.hostNext .wait) =
      .next { s with program := .wait :: s.program, hostLog := s.hostLog ++ [.readData s.statusWord] }) ∧
    (s.pending = [] → step (s.hostNext .wait) =
      .next { s with hostLog := s.hostLog ++ [.readData s.statusWord] }) ∧
    (s.rerr = true → step (s.hostNext .checkRange) =
      .next { s with program := [],
                     hostLog := s.hostLog ++ [.readData s.statusWord] ++ [.stopped .rangeError] }) ∧
    (s.rerr = false → step (s.hostNext .checkRange) =
      .next { s with hostLog := s.hostLog ++ [.readData s.statusWord] })

/-- R79: a window that passes the range check has an area of at most `W*H`, so under CLEAR's condition the RECT of any
two corners inside the surface assembles, as SETWIN of the ordered corners and FILLC of their area. -/
def Obligations.RectangleInsideSurfaceAssembles : Prop :=
  ∀ (c : Config) (xs xe ys ye color : Half),
    rangeFail c .setWindow ⟨lower xs xe, upper xs xe, lower ys ye, upper ys ye, color⟩ = false →
    span (lower xs xe) (upper xs xe) * span (lower ys ye) (upper ys ye) ≤ c.surfaceW * c.surfaceH ∧
    (c.surfaceW * c.surfaceH ≤ 0xFFFF → ∃ n : Half,
      n.toNat = span (lower xs xe) (upper xs xe) * span (lower ys ye) (upper ys ye) ∧
      rect c xs xe ys ye color = some
        [writeAt c 0x04 ((lower xs xe).setWidth 32), writeAt c 0x08 ((upper xs xe).setWidth 32),
         writeAt c 0x0C ((lower ys ye).setWidth 32), writeAt c 0x10 ((upper ys ye).setWidth 32),
         .wait, writeAt c 0x18 0x04000000#32, .checkRange,
         writeAt c 0x14 (color.setWidth 32), .wait, writeAt c 0x18 (encode (.fill n))])

/-- R185: an init table is read back as exactly the records it was made from, and a table that can be read is one made
from its records: a malformed table, trailing bytes included, has no meaning (assumption 14). -/
def Obligations.InitTableReadsBack : Prop :=
  (∀ rs : List InitRecord, rs.length < 256 → (∀ r ∈ rs, r.args.length < 256) → initTable (tableBytes rs) = some rs) ∧
  ∀ (t : List Byte) (rs : List InitRecord), initTable t = some rs → tableBytes rs = t

/-- R172: an error-free run has OVR = 0, ILL = 0 and no HostBusError in every state, and every SET_WINDOW accepted in it
that the program depends on passed its range check and had its result read back later in the run. -/
def Obligations.ErrorFreeRunDependsOnPassedWindows : Prop :=
  ∀ (depends : Nat → Bool) (k : Nat) (s : State), errorFreeRun depends k s = true →
    (∀ j ≤ k, ∃ t, Sys2Proof.core.run j s = .next t ∧ t.ovr = false ∧ t.ill = false ∧ .busError ∉ t.hostLog) ∧
    ∀ j < k, depends j = true → ∀ (t : State) (w : Word), Sys2Proof.core.run j s = .next t →
      t.nextWrite = some (.cmd, w) → t.pending = [] → decode w = some .setWindow →
        rangeFail t.cfg .setWindow t.snapshot = false ∧
        ∃ m u, j < m ∧ m < k ∧ Sys2Proof.core.run m s = .next u ∧ u.readsStatus = true ∧ u.rerr = false

/-- R79, R121: from an idle block, SETWIN of a window out of range takes the host seven turns and stops with RangeError:
the four coordinates are written, RERR is 1, no event is emitted, and nothing that stands behind SETWIN runs, FILLC in
particular. That the stop ends the whole host program is the model's choice (assumption 16). -/
def Obligations.FailedWindowStopsBeforeTheFill : Prop :=
  ∀ (s : State) (x0 x1 y0 y1 : Half) (rest : List HostStmt) (ts : List Turn), s.pending = [] →
    s.program = setwin s.cfg x0 x1 y0 y1 ++ rest → s.turns = List.replicate 7 .host ++ ts →
    (x1.toNat < x0.toNat ∨ s.cfg.surfaceW ≤ x1.toNat ∨ y1.toNat < y0.toNat ∨ s.cfg.surfaceH ≤ y1.toNat) →
    ∃ t, Sys2Proof.core.run 7 s = .next t ∧
      t = { s with x0 := x0, x1 := x1, y0 := y0, y1 := y1, rerr := true, phase := .pCs, program := [], turns := ts,
                   hostLog := t.hostLog } ∧
      t.hostLog.getLast? = some (.stopped .rangeError)

/-- R79: where `W*H` fits 16 bits, RECT, HLINE and VLINE assemble for every operand. RECT's count that fits gives SETWIN
and then FILLC; one that does not fit gives SETWIN alone when the window fails its range check, since FILLC is then not
reached, and is refused by the assembler when it passes (assumption 13). -/
def Obligations.RectangleAssembles : Prop :=
  (∀ (c : Config) (xs xe ys ye x y color : Half), c.surfaceW * c.surfaceH ≤ 0xFFFF →
    (rect c xs xe ys ye color).isSome = true ∧ (hline c xs xe y color).isSome = true ∧
    (vline c x ys ye color).isSome = true) ∧
  ∀ (c : Config) (xs xe ys ye color : Half),
    (∀ n : Half, n.toNat = span (lower xs xe) (upper xs xe) * span (lower ys ye) (upper ys ye) →
      rect c xs xe ys ye color = some (setwin c (lower xs xe) (upper xs xe) (lower ys ye) (upper ys ye) ++
        [writeAt c 0x14 (color.setWidth 32), .wait, writeAt c 0x18 (encode (.fill n))])) ∧
    (0xFFFF < span (lower xs xe) (upper xs xe) * span (lower ys ye) (upper ys ye) →
      (rangeFail c .setWindow ⟨lower xs xe, upper xs xe, lower ys ye, upper ys ye, color⟩ = true →
        rect c xs xe ys ye color = some
          [writeAt c 0x04 ((lower xs xe).setWidth 32), writeAt c 0x08 ((upper xs xe).setWidth 32),
           writeAt c 0x0C ((lower ys ye).setWidth 32), writeAt c 0x10 ((upper ys ye).setWidth 32),
           .wait, writeAt c 0x18 0x04000000#32, .checkRange]) ∧
      (rangeFail c .setWindow ⟨lower xs xe, upper xs xe, lower ys ye, upper ys ye, color⟩ = false →
        rect c xs xe ys ye color = none))
end

