-- ==== Sys2Proof/Laws/Decode.lean ====
section
/-! SUPPORT. The fields of encoded words, and the layout of a word as bytes. -/

namespace Sys2Proof

/-- A word is its four fields OP, RSV, IMM[15:8] and IMM[7:0] (R70, R71). -/
theorem word_eq_fields (w : Word) :
    w = opField w ++ rsvField w ++ immHigh (immField w) ++ immLow (immField w) := by
  apply BitVec.eq_of_getLsbD_eq
  intro i hi
  simp only [opField, rsvField, immHigh, immLow, immField, BitVec.getLsbD_append, BitVec.getLsbD_extractLsb']
  interval_cases i <;> simp

/-- An immediate is its two bytes (R71). -/
theorem imm_eq_bytes (h : Half) : h = immHigh h ++ immLow h := by
  apply BitVec.eq_of_getLsbD_eq
  intro i hi
  simp only [immHigh, immLow, BitVec.getLsbD_append, BitVec.getLsbD_extractLsb']
  interval_cases i <;> simp

/-- OP of a word built by R78 from an operation code and an operand of 16 bits. -/
theorem opField_or (c : Word) (h : Half) : opField (c ||| h.setWidth 32) = opField c := by
  apply BitVec.eq_of_getLsbD_eq
  intro i hi
  simp only [opField, BitVec.getLsbD_extractLsb', BitVec.getLsbD_or, BitVec.getLsbD_setWidth]
  interval_cases i <;> simp

/-- RSV of a word built by R78 from an operation code and an operand of 16 bits. -/
theorem rsvField_or (c : Word) (h : Half) : rsvField (c ||| h.setWidth 32) = rsvField c := by
  apply BitVec.eq_of_getLsbD_eq
  intro i hi
  simp only [rsvField, BitVec.getLsbD_extractLsb', BitVec.getLsbD_or, BitVec.getLsbD_setWidth]
  interval_cases i <;> simp

/-- IMM of a word built by R78 from an operation code and an operand of 16 bits. -/
theorem immField_or (c : Word) (h : Half) : immField (c ||| h.setWidth 32) = immField c ||| h := by
  apply BitVec.eq_of_getLsbD_eq
  intro i hi
  simp only [immField, BitVec.getLsbD_extractLsb', BitVec.getLsbD_or, BitVec.getLsbD_setWidth]
  interval_cases i <;> simp

/-- A word is its fields OP, RSV and IMM (R70). -/
theorem word_eq_op_rsv_imm (w : Word) : w = opField w ++ rsvField w ++ immField w := by
  apply BitVec.eq_of_getLsbD_eq
  intro i hi
  simp only [opField, rsvField, immField, BitVec.getLsbD_append, BitVec.getLsbD_extractLsb']
  interval_cases i <;> simp

/-- A word built by R78 is its operation code, RSV = 0 and its operand. -/
theorem or_eq_append (o : Byte) (h : Half) : (o ++ 0x000000#24 ||| h.setWidth 32 : Word) = o ++ 0x00#8 ++ h := by
  apply BitVec.eq_of_getLsbD_eq
  intro i hi
  simp only [BitVec.getLsbD_append, BitVec.getLsbD_or, BitVec.getLsbD_setWidth]
  interval_cases i <;> simp

/-- A byte operand with IMM[15:8] = 0 is the whole immediate (R71). -/
theorem setWidth_immLow (h : Half) (h0 : immHigh h = 0#8) : (immLow h).setWidth 16 = h := by
  conv_rhs => rw [imm_eq_bytes h, h0]
  generalize immLow h = b
  revert b
  decide

/-- The bytes of a word, laid out and read back, are the word (R52). -/
theorem wordBytes_readBack (w : Word) :
    byteLane w 3 ++ byteLane w 2 ++ byteLane w 1 ++ byteLane w 0 = w := by
  apply BitVec.eq_of_getLsbD_eq
  intro i hi
  simp only [byteLane, BitVec.getLsbD_append, BitVec.getLsbD_extractLsb']
  interval_cases i <;> simp

/-- The decoder on a word's bytes is the decoder on the word (R52, R76). -/
theorem decodeBytes_wordBytes (w : Word) : decodeBytes (wordBytes w) = decodeOrWhy w := by
  simp only [wordBytes, decodeBytes, wordBytes_readBack]

end Sys2Proof
end

