-- ==== Sys2Proof/Laws/HostPrograms.lean ====
section
/-! SUPPORT. What the assembler makes of a macro, by whether its count fits 16 bits (R78, R79). -/

namespace Sys2Proof.Machine

/-- FILLC with a count that fits. -/
theorem fillc_of_fits {n : Nat} (h : n < 65536) (c : Config) (color : Half) : fillc c color n =
    some [writeAt c Reg.color.offset (zext32 color), .wait, cmdStmt c (.fill (BitVec.ofNat 16 n))] := by
  have hw : (AsmCmd.fill n).wf = true := decide_eq_true h
  simp [fillc, assemble, hw]

/-- FILLC with a count that has no FILL word. -/
theorem fillc_of_large {n : Nat} (h : 65536 ≤ n) (c : Config) (color : Half) : fillc c color n = none := by
  have hw : (AsmCmd.fill n).wf = false := decide_eq_false (Nat.not_lt.2 h)
  simp [fillc, assemble, hw]

/-- A macro with a count that fits is SETWIN and then FILLC. -/
theorem windowAndFill_of_fits {n : Nat} (h : n < 65536) (c : Config) (x0 x1 y0 y1 color : Half) :
    windowAndFill c x0 x1 y0 y1 color n = some (setwin c x0 x1 y0 y1 ++
      [writeAt c Reg.color.offset (zext32 color), .wait, cmdStmt c (.fill (BitVec.ofNat 16 n))]) := by
  simp only [windowAndFill, fillc_of_fits h]

/-- A macro with a count that does not fit is SETWIN where the window fails, and refused where it passes. -/
theorem windowAndFill_of_large {n : Nat} (h : 65536 ≤ n) (c : Config) (x0 x1 y0 y1 color : Half) :
    windowAndFill c x0 x1 y0 y1 color n =
      if windowRangeFail c ⟨x0, x1, y0, y1, color⟩ then some (setwin c x0 x1 y0 y1) else none := by
  simp only [windowAndFill, fillc_of_large h]

end Sys2Proof.Machine
end

