-- ==== Sys2Proof/Laws/State.lean ====
section
/-! SUPPORT. What each update of State leaves in each field, and what the computed views of State show. -/

namespace Sys2Proof.Machine

@[simp] theorem State.emit_cfg (e : Event) (s : State) : (s.emit e).cfg = s.cfg := rfl
@[simp] theorem State.emit_rerr (e : Event) (s : State) : (s.emit e).rerr = s.rerr := rfl
@[simp] theorem State.emit_ill (e : Event) (s : State) : (s.emit e).ill = s.ill := rfl
@[simp] theorem State.emit_ovr (e : Event) (s : State) : (s.emit e).ovr = s.ovr := rfl
@[simp] theorem State.emit_x0 (e : Event) (s : State) : (s.emit e).x0 = s.x0 := rfl
@[simp] theorem State.emit_x1 (e : Event) (s : State) : (s.emit e).x1 = s.x1 := rfl
@[simp] theorem State.emit_y0 (e : Event) (s : State) : (s.emit e).y0 = s.y0 := rfl
@[simp] theorem State.emit_y1 (e : Event) (s : State) : (s.emit e).y1 = s.y1 := rfl
@[simp] theorem State.emit_color (e : Event) (s : State) : (s.emit e).color = s.color := rfl
@[simp] theorem State.emit_pending (e : Event) (s : State) : (s.emit e).pending = s.pending := rfl
@[simp] theorem State.emit_phase (e : Event) (s : State) : (s.emit e).phase = s.phase := rfl
@[simp] theorem State.emit_cs (e : Event) (s : State) : (s.emit e).cs = s.cs := rfl
@[simp] theorem State.emit_dc (e : Event) (s : State) : (s.emit e).dc = s.dc := rfl
@[simp] theorem State.emit_req (e : Event) (s : State) : (s.emit e).req = s.req := rfl
@[simp] theorem State.emit_history (e : Event) (s : State) : (s.emit e).history = s.history ++ [e] := rfl
@[simp] theorem State.emit_hostLog (e : Event) (s : State) : (s.emit e).hostLog = s.hostLog := rfl
@[simp] theorem State.emit_program (e : Event) (s : State) : (s.emit e).program = s.program := rfl
@[simp] theorem State.emit_turns (e : Event) (s : State) : (s.emit e).turns = s.turns := rfl

@[simp] theorem State.logHost_cfg (r : HostResult) (s : State) : (s.logHost r).cfg = s.cfg := rfl
@[simp] theorem State.logHost_rerr (r : HostResult) (s : State) : (s.logHost r).rerr = s.rerr := rfl
@[simp] theorem State.logHost_ill (r : HostResult) (s : State) : (s.logHost r).ill = s.ill := rfl
@[simp] theorem State.logHost_ovr (r : HostResult) (s : State) : (s.logHost r).ovr = s.ovr := rfl
@[simp] theorem State.logHost_x0 (r : HostResult) (s : State) : (s.logHost r).x0 = s.x0 := rfl
@[simp] theorem State.logHost_x1 (r : HostResult) (s : State) : (s.logHost r).x1 = s.x1 := rfl
@[simp] theorem State.logHost_y0 (r : HostResult) (s : State) : (s.logHost r).y0 = s.y0 := rfl
@[simp] theorem State.logHost_y1 (r : HostResult) (s : State) : (s.logHost r).y1 = s.y1 := rfl
@[simp] theorem State.logHost_color (r : HostResult) (s : State) : (s.logHost r).color = s.color := rfl
@[simp] theorem State.logHost_pending (r : HostResult) (s : State) : (s.logHost r).pending = s.pending := rfl
@[simp] theorem State.logHost_phase (r : HostResult) (s : State) : (s.logHost r).phase = s.phase := rfl
@[simp] theorem State.logHost_cs (r : HostResult) (s : State) : (s.logHost r).cs = s.cs := rfl
@[simp] theorem State.logHost_dc (r : HostResult) (s : State) : (s.logHost r).dc = s.dc := rfl
@[simp] theorem State.logHost_req (r : HostResult) (s : State) : (s.logHost r).req = s.req := rfl
@[simp] theorem State.logHost_history (r : HostResult) (s : State) : (s.logHost r).history = s.history := rfl
@[simp] theorem State.logHost_hostLog (r : HostResult) (s : State) : (s.logHost r).hostLog = s.hostLog ++ [r] := rfl
@[simp] theorem State.logHost_program (r : HostResult) (s : State) : (s.logHost r).program = s.program := rfl
@[simp] theorem State.logHost_turns (r : HostResult) (s : State) : (s.logHost r).turns = s.turns := rfl

@[simp] theorem State.setRerr_cfg (b : Bool) (s : State) : (s.setRerr b).cfg = s.cfg := rfl
@[simp] theorem State.setRerr_rerr (b : Bool) (s : State) : (s.setRerr b).rerr = b := rfl
@[simp] theorem State.setRerr_ill (b : Bool) (s : State) : (s.setRerr b).ill = s.ill := rfl
@[simp] theorem State.setRerr_ovr (b : Bool) (s : State) : (s.setRerr b).ovr = s.ovr := rfl
@[simp] theorem State.setRerr_x0 (b : Bool) (s : State) : (s.setRerr b).x0 = s.x0 := rfl
@[simp] theorem State.setRerr_x1 (b : Bool) (s : State) : (s.setRerr b).x1 = s.x1 := rfl
@[simp] theorem State.setRerr_y0 (b : Bool) (s : State) : (s.setRerr b).y0 = s.y0 := rfl
@[simp] theorem State.setRerr_y1 (b : Bool) (s : State) : (s.setRerr b).y1 = s.y1 := rfl
@[simp] theorem State.setRerr_color (b : Bool) (s : State) : (s.setRerr b).color = s.color := rfl
@[simp] theorem State.setRerr_pending (b : Bool) (s : State) : (s.setRerr b).pending = s.pending := rfl
@[simp] theorem State.setRerr_phase (b : Bool) (s : State) : (s.setRerr b).phase = s.phase := rfl
@[simp] theorem State.setRerr_cs (b : Bool) (s : State) : (s.setRerr b).cs = s.cs := rfl
@[simp] theorem State.setRerr_dc (b : Bool) (s : State) : (s.setRerr b).dc = s.dc := rfl
@[simp] theorem State.setRerr_req (b : Bool) (s : State) : (s.setRerr b).req = s.req := rfl
@[simp] theorem State.setRerr_history (b : Bool) (s : State) : (s.setRerr b).history = s.history := rfl
@[simp] theorem State.setRerr_hostLog (b : Bool) (s : State) : (s.setRerr b).hostLog = s.hostLog := rfl
@[simp] theorem State.setRerr_program (b : Bool) (s : State) : (s.setRerr b).program = s.program := rfl
@[simp] theorem State.setRerr_turns (b : Bool) (s : State) : (s.setRerr b).turns = s.turns := rfl

@[simp] theorem State.writeStatus_cfg (v : Word) (s : State) : (s.writeStatus v).cfg = s.cfg := rfl
@[simp] theorem State.writeStatus_rerr (v : Word) (s : State) : (s.writeStatus v).rerr = s.rerr := rfl
@[simp] theorem State.writeStatus_ill (v : Word) (s : State) : (s.writeStatus v).ill = (s.ill && !v.getLsbD 2) := rfl
@[simp] theorem State.writeStatus_ovr (v : Word) (s : State) : (s.writeStatus v).ovr = (s.ovr && !v.getLsbD 3) := rfl
@[simp] theorem State.writeStatus_x0 (v : Word) (s : State) : (s.writeStatus v).x0 = s.x0 := rfl
@[simp] theorem State.writeStatus_x1 (v : Word) (s : State) : (s.writeStatus v).x1 = s.x1 := rfl
@[simp] theorem State.writeStatus_y0 (v : Word) (s : State) : (s.writeStatus v).y0 = s.y0 := rfl
@[simp] theorem State.writeStatus_y1 (v : Word) (s : State) : (s.writeStatus v).y1 = s.y1 := rfl
@[simp] theorem State.writeStatus_color (v : Word) (s : State) : (s.writeStatus v).color = s.color := rfl
@[simp] theorem State.writeStatus_pending (v : Word) (s : State) : (s.writeStatus v).pending = s.pending := rfl
@[simp] theorem State.writeStatus_phase (v : Word) (s : State) : (s.writeStatus v).phase = s.phase := rfl
@[simp] theorem State.writeStatus_cs (v : Word) (s : State) : (s.writeStatus v).cs = s.cs := rfl
@[simp] theorem State.writeStatus_dc (v : Word) (s : State) : (s.writeStatus v).dc = s.dc := rfl
@[simp] theorem State.writeStatus_req (v : Word) (s : State) : (s.writeStatus v).req = s.req := rfl
@[simp] theorem State.writeStatus_history (v : Word) (s : State) : (s.writeStatus v).history = s.history := rfl
@[simp] theorem State.writeStatus_hostLog (v : Word) (s : State) : (s.writeStatus v).hostLog = s.hostLog := rfl
@[simp] theorem State.writeStatus_program (v : Word) (s : State) : (s.writeStatus v).program = s.program := rfl
@[simp] theorem State.writeStatus_turns (v : Word) (s : State) : (s.writeStatus v).turns = s.turns := rfl

@[simp] theorem State.turnNext_cfg (t : Turn) (s : State) : (s.turnNext t).cfg = s.cfg := rfl
@[simp] theorem State.turnNext_rerr (t : Turn) (s : State) : (s.turnNext t).rerr = s.rerr := rfl
@[simp] theorem State.turnNext_ill (t : Turn) (s : State) : (s.turnNext t).ill = s.ill := rfl
@[simp] theorem State.turnNext_ovr (t : Turn) (s : State) : (s.turnNext t).ovr = s.ovr := rfl
@[simp] theorem State.turnNext_x0 (t : Turn) (s : State) : (s.turnNext t).x0 = s.x0 := rfl
@[simp] theorem State.turnNext_x1 (t : Turn) (s : State) : (s.turnNext t).x1 = s.x1 := rfl
@[simp] theorem State.turnNext_y0 (t : Turn) (s : State) : (s.turnNext t).y0 = s.y0 := rfl
@[simp] theorem State.turnNext_y1 (t : Turn) (s : State) : (s.turnNext t).y1 = s.y1 := rfl
@[simp] theorem State.turnNext_color (t : Turn) (s : State) : (s.turnNext t).color = s.color := rfl
@[simp] theorem State.turnNext_pending (t : Turn) (s : State) : (s.turnNext t).pending = s.pending := rfl
@[simp] theorem State.turnNext_phase (t : Turn) (s : State) : (s.turnNext t).phase = s.phase := rfl
@[simp] theorem State.turnNext_cs (t : Turn) (s : State) : (s.turnNext t).cs = s.cs := rfl
@[simp] theorem State.turnNext_dc (t : Turn) (s : State) : (s.turnNext t).dc = s.dc := rfl
@[simp] theorem State.turnNext_req (t : Turn) (s : State) : (s.turnNext t).req = s.req := rfl
@[simp] theorem State.turnNext_history (t : Turn) (s : State) : (s.turnNext t).history = s.history := rfl
@[simp] theorem State.turnNext_hostLog (t : Turn) (s : State) : (s.turnNext t).hostLog = s.hostLog := rfl
@[simp] theorem State.turnNext_program (t : Turn) (s : State) : (s.turnNext t).program = s.program := rfl
@[simp] theorem State.turnNext_turns (t : Turn) (s : State) : (s.turnNext t).turns = t :: s.turns := rfl

@[simp] theorem State.hostNext_cfg (st : HostStmt) (s : State) : (s.hostNext st).cfg = s.cfg := rfl
@[simp] theorem State.hostNext_rerr (st : HostStmt) (s : State) : (s.hostNext st).rerr = s.rerr := rfl
@[simp] theorem State.hostNext_ill (st : HostStmt) (s : State) : (s.hostNext st).ill = s.ill := rfl
@[simp] theorem State.hostNext_ovr (st : HostStmt) (s : State) : (s.hostNext st).ovr = s.ovr := rfl
@[simp] theorem State.hostNext_x0 (st : HostStmt) (s : State) : (s.hostNext st).x0 = s.x0 := rfl
@[simp] theorem State.hostNext_x1 (st : HostStmt) (s : State) : (s.hostNext st).x1 = s.x1 := rfl
@[simp] theorem State.hostNext_y0 (st : HostStmt) (s : State) : (s.hostNext st).y0 = s.y0 := rfl
@[simp] theorem State.hostNext_y1 (st : HostStmt) (s : State) : (s.hostNext st).y1 = s.y1 := rfl
@[simp] theorem State.hostNext_color (st : HostStmt) (s : State) : (s.hostNext st).color = s.color := rfl
@[simp] theorem State.hostNext_pending (st : HostStmt) (s : State) : (s.hostNext st).pending = s.pending := rfl
@[simp] theorem State.hostNext_phase (st : HostStmt) (s : State) : (s.hostNext st).phase = s.phase := rfl
@[simp] theorem State.hostNext_cs (st : HostStmt) (s : State) : (s.hostNext st).cs = s.cs := rfl
@[simp] theorem State.hostNext_dc (st : HostStmt) (s : State) : (s.hostNext st).dc = s.dc := rfl
@[simp] theorem State.hostNext_req (st : HostStmt) (s : State) : (s.hostNext st).req = s.req := rfl
@[simp] theorem State.hostNext_history (st : HostStmt) (s : State) : (s.hostNext st).history = s.history := rfl
@[simp] theorem State.hostNext_hostLog (st : HostStmt) (s : State) : (s.hostNext st).hostLog = s.hostLog := rfl
@[simp] theorem State.hostNext_program (st : HostStmt) (s : State) : (s.hostNext st).program = st :: s.program := rfl
@[simp] theorem State.hostNext_turns (st : HostStmt) (s : State) : (s.hostNext st).turns = .host :: s.turns := rfl

@[simp] theorem State.resetStep_cfg (d : Dc) (s : State) : (resetStep d s).cfg = s.cfg := rfl
@[simp] theorem State.resetStep_rerr (d : Dc) (s : State) : (resetStep d s).rerr = false := rfl
@[simp] theorem State.resetStep_ill (d : Dc) (s : State) : (resetStep d s).ill = false := rfl
@[simp] theorem State.resetStep_ovr (d : Dc) (s : State) : (resetStep d s).ovr = false := rfl
@[simp] theorem State.resetStep_x0 (d : Dc) (s : State) : (resetStep d s).x0 = 0x0000#16 := rfl
@[simp] theorem State.resetStep_x1 (d : Dc) (s : State) : (resetStep d s).x1 = 0x0000#16 := rfl
@[simp] theorem State.resetStep_y0 (d : Dc) (s : State) : (resetStep d s).y0 = 0x0000#16 := rfl
@[simp] theorem State.resetStep_y1 (d : Dc) (s : State) : (resetStep d s).y1 = 0x0000#16 := rfl
@[simp] theorem State.resetStep_color (d : Dc) (s : State) : (resetStep d s).color = 0x0000#16 := rfl
@[simp] theorem State.resetStep_pending (d : Dc) (s : State) : (resetStep d s).pending = [] := rfl
@[simp] theorem State.resetStep_phase (d : Dc) (s : State) : (resetStep d s).phase = .pCs := rfl
@[simp] theorem State.resetStep_cs (d : Dc) (s : State) : (resetStep d s).cs = false := rfl
@[simp] theorem State.resetStep_dc (d : Dc) (s : State) : (resetStep d s).dc = d := rfl
@[simp] theorem State.resetStep_req (d : Dc) (s : State) : (resetStep d s).req = none := rfl
@[simp] theorem State.resetStep_history (d : Dc) (s : State) : (resetStep d s).history = s.history ++ [.rst] := rfl
@[simp] theorem State.resetStep_hostLog (d : Dc) (s : State) : (resetStep d s).hostLog = s.hostLog := rfl
@[simp] theorem State.resetStep_program (d : Dc) (s : State) : (resetStep d s).program = s.program := rfl
@[simp] theorem State.resetStep_turns (d : Dc) (s : State) : (resetStep d s).turns = s.turns := rfl

@[simp] theorem raise_rangeError (s : State) : s.raise .rangeError = { s with rerr := true } := rfl
@[simp] theorem raise_illegalCommand (s : State) : s.raise .illegalCommand = { s with ill := true } := rfl
@[simp] theorem raise_commandOverrun (s : State) : s.raise .commandOverrun = { s with ovr := true } := rfl
@[simp] theorem raise_hostBusError (s : State) : s.raise .hostBusError = s := rfl

/-- R22, first sentence. -/
theorem busy_eq_true_iff (s : State) : s.busy = true ↔ s.pending ≠ [] := by
  simp [State.busy]

theorem busy_eq_false_iff (s : State) : s.busy = false ↔ s.pending = [] := by
  simp [State.busy]

/-- Bit 0 of a STATUS read is BUSY (R26). -/
theorem statusWord_bit0 (s : State) : s.statusWord.getLsbD 0 = s.busy := by
  unfold State.statusWord
  cases s.ovr <;> cases s.ill <;> cases s.rerr <;> cases s.busy <;> rfl

/-- Bit 1 of a STATUS read is RERR (R26). -/
theorem statusWord_bit1 (s : State) : s.statusWord.getLsbD 1 = s.rerr := by
  unfold State.statusWord
  cases s.ovr <;> cases s.ill <;> cases s.rerr <;> cases s.busy <;> rfl

/-- Bit 2 of a STATUS read is ILL (R26). -/
theorem statusWord_bit2 (s : State) : s.statusWord.getLsbD 2 = s.ill := by
  unfold State.statusWord
  cases s.ovr <;> cases s.ill <;> cases s.rerr <;> cases s.busy <;> rfl

/-- Bit 3 of a STATUS read is OVR (R26). -/
theorem statusWord_bit3 (s : State) : s.statusWord.getLsbD 3 = s.ovr := by
  unfold State.statusWord
  cases s.ovr <;> cases s.ill <;> cases s.rerr <;> cases s.busy <;> rfl

/-- The reserved bits of a STATUS read are 0 (R21). -/
theorem statusWord_high (s : State) {j : Nat} (h : 4 ≤ j) : s.statusWord.getLsbD j = false := by
  unfold State.statusWord
  rw [BitVec.getLsbD_setWidth, BitVec.getLsbD_of_ge _ _ h, Bool.and_false]

/-- The trace after an event is recorded. -/
theorem trace_emit (e : Event) (s : State) :
    (s.emit e).trace = if e.onTrace then s.trace ++ [e] else s.trace := by
  cases h : e.onTrace <;> simp [State.trace, h]

/-- The trace depends on the history alone. -/
theorem trace_eq_of_history {s t : State} (h : s.history = t.history) : s.trace = t.trace := by
  simp [State.trace, h]

/-- A watcher of the bus takes one event more. -/
theorem busPhase_append_one (es : List Event) (e : Event) :
    busPhase (es ++ [e]) = (busPhase es).bind fun p => busNext p e := by
  simp [busPhase]

end Sys2Proof.Machine
end

