-- ==== Sys2Proof/Laws/Ops.lean ====
section
/-! SUPPORT. What each shared operation can do, said once: the accept (R90), the meanings through it, the sequencer's
and the transport's turns (R94, R96), and the register window (R51). -/

namespace Sys2Proof.Machine

/-- An accept with BUSY = 1 is an overrun (R90). -/
theorem accept_of_busy {s : State} (h : s.pending ≠ []) (failed : Bool) (fs : List Frame) :
    s.accept failed fs = { s with ovr := true } := by
  simp [State.accept, (busy_eq_true_iff s).2 h]

/-- An accept with BUSY = 0 writes RERR, `pending` and `phase` (R90). -/
theorem accept_of_idle {s : State} (h : s.pending = []) (failed : Bool) (fs : List Frame) :
    s.accept failed fs = { s with rerr := failed, pending := fs, phase := .pCs } := by
  simp [State.accept, (busy_eq_false_iff s).2 h, State.setRerr]

/-- Every command is accepted with the result and the frames that the tables of R93 and R120 give it. -/
theorem exec_eq_accept (i : Instr) (s : State) :
    exec i s = .next (s.accept (rangeFail s.cfg i s.snapshot) (opFrames s.cfg i s.snapshot)) := by
  cases i <;> rfl

/-- A command executed with BUSY = 1 sets OVR and nothing else. -/
theorem exec_of_busy {s : State} (h : s.pending ≠ []) (i : Instr) : exec i s = .next { s with ovr := true } := by
  rw [exec_eq_accept, accept_of_busy h]

/-- A command executed with BUSY = 0. -/
theorem exec_of_idle {s : State} (h : s.pending = []) (i : Instr) :
    exec i s = .next { s with
      rerr := rangeFail s.cfg i s.snapshot, pending := opFrames s.cfg i s.snapshot, phase := .pCs } := by
  rw [exec_eq_accept, accept_of_idle h]

/-- The range check as a proposition (R120). -/
theorem windowRangeFail_iff (c : Config) (k : Snapshot) : windowRangeFail c k = true ↔
    k.x1.toNat < k.x0.toNat ∨ c.surfaceW ≤ k.x1.toNat ∨ k.y1.toNat < k.y0.toNat ∨ c.surfaceH ≤ k.y1.toNat := by
  simp only [windowRangeFail, Bool.or_eq_true, decide_eq_true_eq, or_assoc]

/-- "The list has length 0 to 65536" (R93). -/
theorem opFrames_length_le (c : Config) (i : Instr) (k : Snapshot) : (opFrames c i k).length ≤ 65536 := by
  cases i with
  | sendCmd b => simp [opFrames]
  | sendData8 b => simp [opFrames]
  | sendData16 w => simp [opFrames]
  | setWindow => simp only [opFrames, windowFrames]; split <;> simp
  | fill n => simp only [opFrames, fillFrames, List.length_cons, List.length_replicate]; omega

/-- A failing range check has no frames (R121). -/
theorem opFrames_of_rangeFail {c : Config} {i : Instr} {k : Snapshot} (h : rangeFail c i k = true) :
    opFrames c i k = [] := by
  cases i with
  | setWindow => exact if_pos h
  | sendCmd b => cases h
  | sendData8 b => cases h
  | sendData16 w => cases h
  | fill n => cases h

/-- A command frame of any operation carries a byte (R92). -/
theorem opFrames_cmd_byte {c : Config} {i : Instr} {k : Snapshot} :
    ∀ f ∈ opFrames c i k, f.dc = .cmd → ∃ b, f.payload = .byte b := by
  intro f hf hd
  cases i with
  | sendCmd b => simp only [opFrames, List.mem_singleton] at hf; subst hf; exact ⟨b, rfl⟩
  | sendData8 b => simp only [opFrames, List.mem_singleton] at hf; subst hf; cases hd
  | sendData16 w => simp only [opFrames, List.mem_singleton] at hf; subst hf; cases hd
  | setWindow =>
    simp only [opFrames, windowFrames] at hf
    split at hf
    · cases hf
    · simp only [List.mem_cons, List.not_mem_nil, or_false] at hf
      rcases hf with rfl | rfl | rfl | rfl | rfl | rfl <;> first | exact ⟨_, rfl⟩ | cases hd
  | fill n =>
    simp only [opFrames, fillFrames, List.mem_cons] at hf
    rcases hf with rfl | hf
    · exact ⟨_, rfl⟩
    · rw [List.eq_of_mem_replicate hf] at hd; cases hd

/-- The sequencer has no step when idle (R94). -/
theorem seqStep_of_idle {s : State} (h : s.pending = []) : seqStep s = s := by simp [seqStep, h]

/-- The sequencer has no step in `P_WAIT` (R94). -/
theorem seqStep_of_wait {s : State} (h : s.phase = .pWait) : seqStep s = s := by
  unfold seqStep
  split
  · rfl
  · simp [seqStepOn, h]

/-- The sequencer's step by phase (R94). -/
theorem seqStep_cons {s : State} {f : Frame} {rest : List Frame} (h : s.pending = f :: rest) :
    seqStep s = seqStepOn f rest s := by simp [seqStep, h]

/-- The transport has no step without a request (R96). -/
theorem transportStep_none {s : State} (h : s.req = none) (r : Half) : transportStep r s = s := by
  simp [transportStep, h]

/-- The transport's `DONE(r)` (R96). -/
theorem transportStep_some {s : State} {p : Payload} (h : s.req = some p) (r : Half) :
    transportStep r s = { s.emit (.done (p.received r)) with req := none, phase := .pRel } := by
  simp [transportStep, h]

/-- What a sequencer's turn leaves unchanged: everything but the operation, the lines, the request and the events. -/
theorem seqStep_frame (s : State) : seqStep s = { s with
    pending := (seqStep s).pending, phase := (seqStep s).phase, cs := (seqStep s).cs, dc := (seqStep s).dc,
    req := (seqStep s).req, history := (seqStep s).history } := by
  unfold seqStep seqStepOn
  repeat' split
  all_goals rfl

/-- What a transport's turn leaves unchanged: everything but the request, the phase and the events. -/
theorem transportStep_frame (r : Half) (s : State) : transportStep r s = { s with
    req := (transportStep r s).req, phase := (transportStep r s).phase, history := (transportStep r s).history } := by
  unfold transportStep
  split <;> rfl

/-- The register at a register's own offset is that register (R20). -/
@[simp] theorem regAt_offset (r : Reg) : regAt r.offset = some r := by cases r <;> rfl

/-- The eight offsets of R51 are the only ones. -/
theorem regAt_eq_some_iff (n : Nat) (r : Reg) : regAt n = some r ↔ n = r.offset := by
  constructor
  · intro h
    unfold regAt at h
    split at h <;> simp_all <;> subst h <;> rfl
  · rintro rfl
    exact regAt_offset r

/-- An offset that is no multiple of 4 names no register (R51). -/
theorem regAt_of_unaligned {n : Nat} (h : n % 4 ≠ 0) : regAt n = none := by
  rcases hr : regAt n with _ | r
  · rfl
  · rw [regAt_eq_some_iff] at hr
    subst hr
    cases r <;> simp [Reg.offset] at h

/-- A register's offset lies in the window (R50). -/
theorem offset_lt (r : Reg) : r.offset < 32 := by cases r <;> decide

@[simp] theorem inWindow_offset (c : Config) (r : Reg) : inWindow c (c.base + r.offset) = true := by
  have := offset_lt r
  simp [inWindow, this]

@[simp] theorem target_offset (c : Config) (r : Reg) (k : AccessKind) :
    HostAccess.target ⟨c.base + r.offset, 32, k⟩ c = some r := by
  simp [HostAccess.target]

/-- `BASE` is a multiple of 4, being a multiple of 32 (R5). -/
theorem base_mod_four (c : Config) : c.base % 4 = 0 := by unfold Config.base; omega

/-- An access in the window is not taken exactly when its width is not 32 or its address is no multiple of 4 (R51). -/
theorem target_eq_none_iff {a : HostAccess} {c : Config} (h : inWindow c a.addr = true) :
    a.target c = none ↔ a.width ≠ 32 ∨ a.addr % 4 ≠ 0 := by
  simp only [inWindow, Bool.and_eq_true, decide_eq_true_eq] at h
  have hb := base_mod_four c
  unfold HostAccess.target
  split
  · constructor
    · intro hn
      right
      intro h4
      obtain ⟨k, hk⟩ : ∃ k, a.addr - c.base = 4 * k := ⟨(a.addr - c.base) / 4, by omega⟩
      have : k < 8 := by omega
      rw [hk] at hn
      interval_cases k <;> simp [regAt] at hn
    · intro hn
      exact regAt_of_unaligned (by omega)
  · exact ⟨fun _ => .inl ‹_›, fun _ => rfl⟩

/-- A write to CMD answers a next state (R90). -/
theorem writeCmd_next (w : Word) (s : State) : ∃ t, writeCmd w s = .next t := by
  unfold writeCmd
  split
  · exact ⟨_, rfl⟩
  · split
    · exact ⟨_, rfl⟩
    · exact ⟨_, exec_eq_accept _ _⟩

/-- A write to a register answers a next state. -/
theorem writeReg_next (r : Reg) (v : Word) (s : State) : ∃ t, writeReg r v s = .next t := by
  cases r <;> first | exact ⟨_, rfl⟩ | exact writeCmd_next v s

end Sys2Proof.Machine
end

