-- ==== Sys2Proof/Laws/PerInstr.lean ====
section
/-! SUPPORT. Statements about every command as syntax, one lemma per constructor: the word of a command stands in
exactly its row of the opcode map (R73). -/

namespace Sys2Proof.Laws.OpcodeMap

/-- The word of a command matches a row of R73 whose fields give the command back. -/
def Statement (i : Instr) : Prop :=
  ∃ r ∈ opcodeMap, encode i &&& r.mask = r.value ∧ r.build (encode i) = i

theorem sendCmd (b : Byte) : Statement (.sendCmd b) :=
  ⟨opcodeMap[0], by simp [opcodeMap], by revert b; decide, by revert b; decide⟩

theorem sendData8 (b : Byte) : Statement (.sendData8 b) :=
  ⟨opcodeMap[1], by simp [opcodeMap], by revert b; decide, by revert b; decide⟩

/-- The masked word of a command with a 16-bit operand is its operation code. -/
theorem half_masked (o : Byte) (h : Half) :
    (o ++ 0x000000#24 ||| h.setWidth 32 : Word) &&& 0xFFFF0000#32 = o ++ 0x000000#24 := by
  apply BitVec.eq_of_getLsbD_eq
  intro i hi
  simp only [BitVec.getLsbD_append, BitVec.getLsbD_or, BitVec.getLsbD_setWidth, BitVec.getLsbD_and]
  interval_cases i <;> simp

theorem sendData16 (w : Half) : Statement (.sendData16 w) :=
  ⟨opcodeMap[2], by simp [opcodeMap], half_masked 0x03#8 w, by
    have h := immField_or 0x03000000#32 w
    have h0 : immField 0x03000000#32 ||| w = w := by simp [immField]
    exact congrArg Instr.sendData16 (h.trans h0)⟩

theorem setWindow : Statement .setWindow :=
  ⟨opcodeMap[3], by simp [opcodeMap], by decide, by decide⟩

theorem fill (n : Half) : Statement (.fill n) :=
  ⟨opcodeMap[4], by simp [opcodeMap], half_masked 0x05#8 n, by
    have h := immField_or 0x05000000#32 n
    have h0 : immField 0x05000000#32 ||| n = n := by simp [immField]
    exact congrArg Instr.fill (h.trans h0)⟩

end Sys2Proof.Laws.OpcodeMap
end

