-- ==== Sys2Proof/Laws/Safety.lean ====
section
/-! SUPPORT. What the invariant of Safety.lean depends on, and the predicates of R172 one step at a time. -/

namespace Sys2Proof.Machine

/-- The invariant reads the operation, the lines, the request, RERR and the events, and nothing else. -/
theorem Inv.congr {s t : State} (h : Inv s) (h1 : t.pending = s.pending) (h2 : t.phase = s.phase) (h3 : t.cs = s.cs)
    (h4 : t.dc = s.dc) (h5 : t.req = s.req) (h6 : t.rerr = s.rerr) (h7 : t.history = s.history) : Inv t where
  idle_phase := by rw [h1, h2]; exact h.idle_phase
  cs_asserted := by rw [h3, h2]; exact h.cs_asserted
  req_head := by rw [h5, h.req_head]; simp only [State.expectedReq, h1, h2]
  dc_head := by rw [h2, h1, h4]; exact h.dc_head
  cmd_byte := by rw [h1]; exact h.cmd_byte
  pending_length := by rw [h1]; exact h.pending_length
  rerr_idle := by rw [h1, h6]; exact h.rerr_idle
  bus_order := by rw [h7, h2]; exact h.bus_order

/-- In `P_WAIT`, and only there, a request is outstanding (R32, R96). -/
theorem Inv.req_eq_some {s : State} (h : Inv s) {p : Payload} (hr : s.req = some p) :
    s.phase = .pWait ∧ s.pending ≠ [] := by
  have c := h.req_head
  rw [hr] at c
  unfold State.expectedReq at c
  split at c
  · exact ⟨‹_›, by simp [*]⟩
  · cases c

/-- The next step accepts `i` exactly if it is a CMD write with BUSY = 0 of a word that decodes to `i` (R90). -/
theorem accepts_eq_some_iff (s : State) (i : Instr) : s.accepts = some i ↔
    ∃ w, s.nextWrite = some (.cmd, w) ∧ s.pending = [] ∧ decode w = some i := by
  unfold State.accepts
  split
  · rename_i w hw
    by_cases hp : s.pending = [] <;> simp [State.busy, hw, hp]
  · rename_i hw
    exact ⟨nofun, fun ⟨w, h, _⟩ => (hw w h).elim⟩

/-- The next step is a reset exactly if a reset is the next turn. -/
theorem resetsNext_iff (s : State) : s.resetsNext = true ↔ ∃ d ts, s.turns = .reset d :: ts := by
  unfold State.resetsNext
  cases s.turns with
  | nil => simp
  | cons u ts => cases u <;> simp [Turn.isReset]

/-- Reading a result back: now, or later if the next step neither accepts a command nor resets. -/
theorem readsBackSuccess_succ (k : Nat) (s : State) : readsBackSuccess (k + 1) s = true ↔
    (s.readsStatus = true ∧ s.rerr = false) ∨
    (s.accepts = none ∧ s.resetsNext = false ∧ ∃ t, step s = .next t ∧ readsBackSuccess k t = true) := by
  rw [readsBackSuccess]
  cases step s <;> simp [and_assoc]

/-- R172 (d) at a step that accepts a SET_WINDOW that the program depends on. -/
theorem windowPassed_of_accepts {s : State} (h : s.accepts = some .setWindow) (k : Nat) :
    windowPassed true k s = true ↔ ∃ t, step s = .next t ∧ readsBackSuccess k t = true := by
  rw [windowPassed]
  cases step s <;> simp [h]

/-- An error-free run of one step more, from its first step. -/
theorem errorFreeRun_succ (depends : Nat → Bool) (k : Nat) (s : State) : errorFreeRun depends (k + 1) s = true ↔
    s.errorFree = true ∧ windowPassed (depends 0) k s = true ∧
      ∃ t, step s = .next t ∧ errorFreeRun (fun j => depends (j + 1)) k t = true := by
  rw [errorFreeRun]
  cases step s <;> simp [and_assoc]

end Sys2Proof.Machine
end

