-- ==== Sys2Proof/Laws/Step.lean ====
section
/-! SUPPORT. What one step can do: the equations of a turn, and the inversion of a step that answers a next state. -/

namespace Sys2Proof.Machine

/-- With no turn listed nothing moves. -/
theorem step_of_no_turn {s : State} (h : s.turns = []) : step s = .next s := by simp [step, nextTurn, h]

/-- A step is the turn of the agent at the head. -/
theorem step_of_turn {s : State} {t : Turn} {ts : List Turn} (h : s.turns = t :: ts) :
    step s = takeTurn t { s with turns := ts } := by simp [step, nextTurn, h]

theorem step_turnNext (t : Turn) (s : State) : step (s.turnNext t) = takeTurn t s := rfl

theorem step_hostNext (st : HostStmt) (s : State) :
    step (s.hostNext st) = hostStmt st s.program { s with program := st :: s.program } := rfl

/-- The host's access to a register, as a step. -/
theorem step_hostNext_access (a : HostAccess) (s : State) : step (s.hostNext (.access a)) = hostAccess a s := rfl

theorem step_hostNext_writeAt (r : Reg) (v : Word) (s : State) :
    step (s.hostNext (writeAt s.cfg r.offset v)) = writeReg r v (s.logHost .written) := by
  simp [writeAt, step_hostNext_access, hostAccess, accessReg]

theorem step_hostNext_readAt (r : Reg) (s : State) :
    step (s.hostNext (readAt s.cfg r.offset)) = .next (s.logHost (.readData (s.readReg r))) := by
  simp [readAt, step_hostNext_access, hostAccess, accessReg]

/-- The same with the offset as a number. -/
theorem step_writeAt_of_offset {off : Nat} (r : Reg) (h : r.offset = off) (v : Word) (s : State) :
    step (s.hostNext (writeAt s.cfg off v)) = writeReg r v (s.logHost .written) := h ▸ step_hostNext_writeAt r v s

/-- The same with the offset as a number. -/
theorem step_readAt_of_offset {off : Nat} (r : Reg) (h : r.offset = off) (s : State) :
    step (s.hostNext (readAt s.cfg off)) = .next (s.logHost (.readData (s.readReg r))) :=
  h ▸ step_hostNext_readAt r s

/-- `s` after the host has taken its turn, moved on in its program and recorded results: what every host step does
besides its effect on the block. -/
def State.hostMoved (s : State) (ts : List Turn) (p : List HostStmt) (l : List HostResult) : State :=
  { s with turns := ts, program := p, hostLog := l }

/-- What a host step can do to the block, one constructor for each kind of effect. -/
inductive HostEffect (s : State) (ts : List Turn) : State → Prop
  /-- A read, a poll, a write to the reserved word, a bus error, a delay, or no program left. -/
  | quiet (p : List HostStmt) (l : List HostResult) (hw : ∀ r v, s.hostWrite = some (r, v) → r = .reserved) :
      HostEffect s ts (s.hostMoved ts p l)
  /-- A write to an operand register. -/
  | operand (p : List HostStmt) (l : List HostResult) (x0 x1 y0 y1 c : Half) (r : Reg) (v : Word)
      (hw : s.hostWrite = some (r, v)) (hr : r ≠ .cmd ∧ r ≠ .status) :
      HostEffect s ts { s.hostMoved ts p l with x0 := x0, x1 := x1, y0 := y0, y1 := y1, color := c }
  /-- A write to STATUS. -/
  | status (p : List HostStmt) (l : List HostResult) (v : Word) (hw : s.hostWrite = some (.status, v)) :
      HostEffect s ts ((s.hostMoved ts p l).writeStatus v)
  /-- A write to CMD with BUSY = 1. -/
  | overrun (p : List HostStmt) (l : List HostResult) (w : Word) (hw : s.hostWrite = some (.cmd, w))
      (hb : s.pending ≠ []) : HostEffect s ts { s.hostMoved ts p l with ovr := true }
  /-- A write of an illegal word to CMD with BUSY = 0. -/
  | illegal (p : List HostStmt) (l : List HostResult) (w : Word) (hw : s.hostWrite = some (.cmd, w))
      (hb : s.pending = []) (hd : decode w = none) : HostEffect s ts { s.hostMoved ts p l with ill := true }
  /-- A write of a legal word to CMD with BUSY = 0. -/
  | accepted (p : List HostStmt) (l : List HostResult) (w : Word) (i : Instr) (hw : s.hostWrite = some (.cmd, w))
      (hb : s.pending = []) (hd : decode w = some i) :
      HostEffect s ts { s.hostMoved ts p l with
        rerr := rangeFail s.cfg i s.snapshot, pending := opFrames s.cfg i s.snapshot, phase := .pCs }

/-- A host statement that is no write the block takes writes no register. -/
theorem hostWrite_none {s : State} (h : s.hostWrite = none) (r : Reg) (v : Word) :
    s.hostWrite = some (r, v) → r = .reserved := by simp [h]

/-- A host step that answers a next state has one of these effects. -/
theorem hostStep_effect {s t : State} {ts : List Turn} (h : hostStep { s with turns := ts } = .next t) :
    HostEffect s ts t := by
  unfold hostStep at h
  split at h
  · rename_i hp
    injection h with h
    subst h
    exact .quiet s.program s.hostLog (hostWrite_none (by simp only at hp; simp [State.hostWrite, hp]))
  · rename_i st rest hp
    simp only at hp
    cases st with
    | access a =>
      simp only [hostStmt, hostAccess] at h
      split at h
      · rename_i hin
        split at h
        · rename_i hr
          injection h with h
          subst h
          exact .quiet rest _ (hostWrite_none (by cases hk : a.kind <;> simp [State.hostWrite, hp, hk, hin, hr]))
        · rename_i r hr
          obtain ⟨addr, width, kind⟩ := a
          cases kind with
          | read =>
            injection h with h
            subst h
            exact .quiet rest _ (hostWrite_none (by simp [State.hostWrite, hp]))
          | write v =>
            have hw : s.hostWrite = some (r, v) := by simp [State.hostWrite, hp, hin, hr]
            cases r with
            | status =>
              injection h with h
              subst h
              exact .status rest _ v hw
            | cmd =>
              simp only [accessReg, writeReg, writeCmd] at h
              split at h
              · rename_i hb
                injection h with h
                subst h
                exact .overrun rest _ v hw ((busy_eq_true_iff _).1 hb)
              · rename_i hb
                have hb' : s.pending = [] := (busy_eq_false_iff (State.logHost .written
                  { s with program := rest, turns := ts })).1 (by simpa using hb)
                split at h
                · rename_i hd
                  injection h with h
                  subst h
                  exact .illegal rest _ v hw hb' hd
                · rename_i i hd
                  rw [exec_of_idle (by simpa using hb')] at h
                  injection h with h
                  subst h
                  exact .accepted rest _ v i hw hb' hd
            | reserved =>
              injection h with h
              subst h
              exact .quiet rest _ (fun r' v' h' => by rw [hw] at h'; cases h'; rfl)
            | x0 =>
              injection h with h
              subst h
              exact .operand rest _ (operandBits v) s.x1 s.y0 s.y1 s.color _ v hw ⟨nofun, nofun⟩
            | x1 =>
              injection h with h
              subst h
              exact .operand rest _ s.x0 (operandBits v) s.y0 s.y1 s.color _ v hw ⟨nofun, nofun⟩
            | y0 =>
              injection h with h
              subst h
              exact .operand rest _ s.x0 s.x1 (operandBits v) s.y1 s.color _ v hw ⟨nofun, nofun⟩
            | y1 =>
              injection h with h
              subst h
              exact .operand rest _ s.x0 s.x1 s.y0 (operandBits v) s.color _ v hw ⟨nofun, nofun⟩
            | color =>
              injection h with h
              subst h
              exact .operand rest _ s.x0 s.x1 s.y0 s.y1 (operandBits v) _ v hw ⟨nofun, nofun⟩
      · cases h
    | wait =>
      have hw := hostWrite_none (s := s) (by simp [State.hostWrite, hp])
      simp only [hostStmt] at h
      split at h <;> injection h with h <;> subst h
      · exact .quiet s.program _ hw
      · exact .quiet rest _ hw
    | checkRange =>
      have hw := hostWrite_none (s := s) (by simp [State.hostWrite, hp])
      simp only [hostStmt] at h
      split at h <;> injection h with h <;> subst h
      · exact .quiet [] _ hw
      · exact .quiet rest _ hw
    | delay ms =>
      have hw := hostWrite_none (s := s) (by simp [State.hostWrite, hp])
      injection h with h
      subst h
      exact .quiet rest _ hw

/-- An access changes neither the host's program nor the turns. -/
theorem hostAccess_program {a : HostAccess} {s t : State} (h : hostAccess a s = .next t) :
    t.program = s.program ∧ t.turns = s.turns := by
  unfold hostAccess at h
  split at h
  · split at h
    · injection h with h
      subst h
      exact ⟨rfl, rfl⟩
    · rename_i r _
      cases hk : a.kind with
      | read => rw [hk] at h; injection h with h; subst h; exact ⟨rfl, rfl⟩
      | write v =>
        rw [hk] at h
        cases r <;> simp only [accessReg, writeReg, writeCmd] at h
        case cmd =>
          split at h
          · injection h with h
            subst h
            exact ⟨rfl, rfl⟩
          · rename_i hb
            split at h
            · injection h with h
              subst h
              exact ⟨rfl, rfl⟩
            · rw [exec_of_idle ((busy_eq_false_iff _).1 (Bool.eq_false_iff.2 hb))] at h
              injection h with h
              subst h
              exact ⟨rfl, rfl⟩
        all_goals injection h with h; subst h; exact ⟨rfl, rfl⟩
  · cases h

/-- A host step leaves a part of the host's program, and the turns as they are. -/
theorem hostStep_program {s t : State} (h : hostStep s = .next t) :
    (∀ st ∈ t.program, st ∈ s.program) ∧ t.turns = s.turns := by
  unfold hostStep at h
  split at h
  · injection h with h
    subst h
    exact ⟨fun _ h => h, rfl⟩
  · rename_i st rest hp
    rw [hp]
    cases st with
    | access a =>
      obtain ⟨h1, h2⟩ := hostAccess_program h
      rw [h1, h2]
      exact ⟨fun _ hx => List.mem_cons_of_mem _ hx, rfl⟩
    | wait =>
      simp only [hostStmt] at h
      split at h <;> injection h with h <;> subst h
      · exact ⟨fun x hx => by simpa [State.pollStatus, hp] using hx, rfl⟩
      · exact ⟨fun _ hx => List.mem_cons_of_mem _ hx, rfl⟩
    | checkRange =>
      simp only [hostStmt] at h
      split at h <;> injection h with h <;> subst h
      · exact ⟨nofun, rfl⟩
      · exact ⟨fun _ hx => List.mem_cons_of_mem _ hx, rfl⟩
    | delay ms =>
      injection h with h
      subst h
      exact ⟨fun _ hx => List.mem_cons_of_mem _ hx, rfl⟩

/-- What one step that answers a next state can do. -/
inductive StepEffect (s : State) : State → Prop
  | stays (hn : s.turns = []) : StepEffect s s
  | host (ts : List Turn) (hn : s.turns = .host :: ts) (t : State) (e : HostEffect s ts t) : StepEffect s t
  | sequencer (ts : List Turn) (hn : s.turns = .sequencer :: ts) : StepEffect s (seqStep { s with turns := ts })
  | transport (r : Half) (ts : List Turn) (hn : s.turns = .transport r :: ts) :
      StepEffect s (transportStep r { s with turns := ts })
  | reset (d : Dc) (ts : List Turn) (hn : s.turns = .reset d :: ts) : StepEffect s (resetStep d { s with turns := ts })

/-- The inversion of a step. -/
theorem step_effect {s t : State} (h : step s = .next t) : StepEffect s t := by
  unfold step nextTurn at h
  split at h
  · rename_i hn
    injection h with h
    subst h
    exact .stays hn
  · rename_i u ts hn
    cases u with
    | host => exact .host ts hn t (hostStep_effect h)
    | sequencer => injection h with h; subst h; exact .sequencer ts hn
    | transport r => injection h with h; subst h; exact .transport r ts hn
    | reset d => injection h with h; subst h; exact .reset d ts hn

/-- The host write of the next step is that of the host's next statement, on a host turn. -/
theorem nextWrite_of_host {s : State} {ts : List Turn} (hn : s.turns = .host :: ts) : s.nextWrite = s.hostWrite := by
  simp [State.nextWrite, hn]

/-- On another turn the next step is no host write. -/
theorem nextWrite_eq_some {s : State} {x : Reg × Word} (h : s.nextWrite = some x) :
    (∃ ts, s.turns = .host :: ts) ∧ s.hostWrite = some x := by
  unfold State.nextWrite at h
  split at h
  · exact ⟨⟨_, by assumption⟩, h⟩
  · cases h

/-- A run of any machine, from a first step that answers a next state. -/
theorem run_succ_of_step (M : Host.Core) {s t : M.State} (h : M.step s = .next t) (k : Nat) :
    M.run (k + 1) s = M.run k t := by
  rw [Host.Core.run, h]

/-- The first step of a run that answers a next state. -/
theorem run_succ_inv (M : Host.Core) {k : Nat} {s u : M.State} (h : M.run (k + 1) s = .next u) :
    ∃ t, M.step s = .next t ∧ M.run k t = .next u := by
  rw [Host.Core.run] at h
  split at h
  · exact ⟨_, by assumption, h⟩
  · cases h
  · cases h

/-- A run of no step. -/
theorem run_zero (s : State) : Sys2Proof.core.run 0 s = .next s := rfl

/-- A run of one step more, from its first step. -/
theorem run_succ_of_next {s t : State} (h : step s = .next t) (k : Nat) :
    Sys2Proof.core.run (k + 1) s = Sys2Proof.core.run k t := run_succ_of_step Sys2Proof.core h k

/-- A run of one step more that answers a next state. -/
theorem run_succ_next {k : Nat} {s u : State} (h : Sys2Proof.core.run (k + 1) s = .next u) :
    ∃ t, step s = .next t ∧ Sys2Proof.core.run k t = .next u := run_succ_inv Sys2Proof.core h

end Sys2Proof.Machine
end

