-- ==== Sys2Proof/Tests/Slice0.lean ====
section
/-! SUPPORT. Tests whose expected results come from 95_test_vectors.md and the rules' own examples, and, for every
statement with hypotheses, a witness that meets them. -/

namespace Sys2Proof.Tests

open Sys2Proof.Machine

/-! ## States the tests start from -/

/-- Reset with the operand registers as given. -/
def operands (x0 x1 y0 y1 c : Half) : State :=
  { State.reset with x0 := x0, x1 := x1, y0 := y0, y1 := y1, color := c }

/-- SEND_CMD(0x2A) from reset, just accepted (2.6 row 1). -/
def accepted : State := { State.reset with pending := [frameC 0x2A#8] }

/-- The same in `P_DC` (2.6 row 2). -/
def selected : State := { accepted with cs := true, phase := .pDc, history := [.cs true] }

/-- The same in `P_XFER` (2.6 row 3). -/
def driven : State := { selected with phase := .pXfer, history := [.cs true, .dc .cmd] }

/-- The same in `P_WAIT` (2.6 row 4). -/
def waiting : State :=
  { driven with phase := .pWait, req := some (.byte 0x2A#8), history := [.cs true, .dc .cmd, .xb 0x2A#8] }

/-- The same in `P_REL` (2.6 row 5), with 0x5A received. -/
def releasing : State :=
  { waiting with phase := .pRel, req := none, history := [.cs true, .dc .cmd, .xb 0x2A#8, .done (.byte 0x5A#8)] }

/-- SEND_DATA8(0x05) from reset, in `P_DC`. -/
def dataSelected : State := { selected with pending := [frameD8 0x05#8] }

/-- Idle after the two frames of vector F6. -/
def afterTwoFrames : State :=
  { State.reset with
    dc := .data
    history := [.cs true, .dc .data, .xb 0x12#8, .done (.byte 0x00#8), .cs false,
      .cs true, .dc .data, .xb 0x34#8, .done (.byte 0x00#8), .cs false] }

/-! ## Well-formedness: each check refuses an ill-formed term -/

theorem test_wf_stf1 : Config.stf1.wf = true := by decide
theorem test_wf_refuses_width_zero : (Config.wf { Config.stf1 with surfaceW := 0 }) = false := by decide
theorem test_wf_refuses_width_large : (Config.wf { Config.stf1 with surfaceW := 65536 }) = false := by decide
theorem test_wf_refuses_height_zero : (Config.wf { Config.stf1 with surfaceH := 0 }) = false := by decide
theorem test_wf_refuses_height_large : (Config.wf { Config.stf1 with surfaceH := 65536 }) = false := by decide
theorem test_wf_refuses_sendCmd : (AsmCmd.sendCmd 0x100).wf = false := by decide
theorem test_wf_refuses_sendData8 : (AsmCmd.sendData8 0x100).wf = false := by decide
theorem test_wf_refuses_sendData16 : (AsmCmd.sendData16 65536).wf = false := by decide
theorem test_wf_refuses_fill : (AsmCmd.fill 65536).wf = false := by decide
theorem test_wf_setWindow : AsmCmd.setWindow.wf = true := by decide

/-! ## Decoding: words written out from R70 to R73, field by field (OP, RSV, IMM) -/

theorem test_decode_sendCmd : decode (0x01#8 ++ 0x00#8 ++ 0x002A#16) = some (.sendCmd 0x2A#8) := by decide
theorem test_decode_sendData8 : decode (0x02#8 ++ 0x00#8 ++ 0x00FF#16) = some (.sendData8 0xFF#8) := by decide
theorem test_decode_sendData16 : decode (0x03#8 ++ 0x00#8 ++ 0x1234#16) = some (.sendData16 0x1234#16) := by decide
theorem test_decode_setWindow : decode (0x04#8 ++ 0x00#8 ++ 0x0000#16) = some .setWindow := by decide
theorem test_decode_fill : decode (0x05#8 ++ 0x00#8 ++ 0x8000#16) = some (.fill 0x8000#16) := by decide

/-- Each item of R74, by name (V2, V3, V4, V5, V6, V9, V14). -/
theorem test_decode_rejects_by_name :
    (match decodeOrWhy 0x01000100#32 with | .error .immediateHigh => true | _ => false) = true ∧
    (match decodeOrWhy 0x0200FF00#32 with | .error .immediateHigh => true | _ => false) = true ∧
    (match decodeOrWhy 0x01010000#32 with | .error .reservedBits => true | _ => false) = true ∧
    (match decodeOrWhy 0x0580000C#32 with | .error .reservedBits => true | _ => false) = true ∧
    (match decodeOrWhy 0x00000000#32 with | .error .opcode => true | _ => false) = true ∧
    (match decodeOrWhy 0x06000000#32 with | .error .opcode => true | _ => false) = true ∧
    (match decodeOrWhy 0x04000001#32 with | .error .immediateNonzero => true | _ => false) = true := by decide

/-- R52, R76: the bytes of 0x0500000C, lowest address first; and a run of bytes of another length. -/
theorem test_decodeBytes :
    (decodeBytes [0x0C#8, 0x00#8, 0x00#8, 0x05#8]).toOption = some (.fill 12#16) ∧
    (match decodeBytes [0x0C#8, 0x00#8] with | .error .length => true | _ => false) = true := by decide

/-- The examples of R78. -/
theorem test_encode_examples :
    encode (.sendCmd 0x2A#8) = 0x0100002A#32 ∧ encode (.sendData8 0x05#8) = 0x02000005#32 ∧
    encode (.sendData16 0x1234#16) = 0x03001234#32 ∧ encode .setWindow = 0x04000000#32 ∧
    encode (.fill 12#16) = 0x0500000C#32 := by decide

theorem test_decodeTableWord :
    decodeTableWord 32 0x0100002A = some (.sendCmd 0x2A#8) ∧ decodeTableWord 32 0x04000000 = some .setWindow ∧
    decodeTableWord 64 0x0100002A = none := by decide

/-! ## The commands -/

/-- The placed word runs as the first command after reset. -/
theorem test_withFetchWord :
    step (State.reset.withFetchWord 32 0x03001234) =
      .next { State.reset with pending := [⟨.data, .word 0x1234#16⟩], hostLog := [.written] } := rfl

/-- R110, example. -/
theorem test_sendCmd : exec (.sendCmd 0x2A#8) State.reset =
    .next { State.reset with pending := [⟨.cmd, .byte 0x2A#8⟩] } := rfl

/-- R111, example. -/
theorem test_sendData8 : exec (.sendData8 0x05#8) State.reset =
    .next { State.reset with pending := [⟨.data, .byte 0x05#8⟩] } := rfl

/-- R112, example: one word, not two bytes. -/
theorem test_sendData16 : exec (.sendData16 0x1234#16) State.reset =
    .next { State.reset with pending := [⟨.data, .word 0x1234#16⟩] } := rfl

/-- R121, example. -/
theorem test_setWindow : exec .setWindow (operands 2#16 5#16 2#16 4#16 0#16) =
    .next { operands 2#16 5#16 2#16 4#16 0#16 with
      pending := [⟨.cmd, .byte 0x2A#8⟩, ⟨.data, .word 2#16⟩, ⟨.data, .word 5#16⟩,
        ⟨.cmd, .byte 0x2B#8⟩, ⟨.data, .word 2#16⟩, ⟨.data, .word 4#16⟩] } := rfl

/-- W4: RERR = 1, no frame. -/
theorem test_setWindow_fails : exec .setWindow (operands 0#16 161#16 0#16 0#16 0#16) =
    .next { operands 0#16 161#16 0#16 0#16 0#16 with rerr := true } := rfl

/-- W1 to W10: the range check of each vector. -/
theorem test_range_vectors :
    windowRangeFail Config.stf1 ⟨0, 160, 0, 129, 0⟩ = false ∧ windowRangeFail Config.stf1 ⟨5, 5, 7, 7, 0⟩ = false ∧
    windowRangeFail Config.stf1 ⟨160, 160, 129, 129, 0⟩ = false ∧
    windowRangeFail Config.stf1 ⟨0, 161, 0, 0, 0⟩ = true ∧ windowRangeFail Config.stf1 ⟨0, 0, 0, 130, 0⟩ = true ∧
    windowRangeFail Config.stf1 ⟨6, 5, 0, 0, 0⟩ = true ∧ windowRangeFail Config.stf1 ⟨0, 0, 9, 8, 0⟩ = true ∧
    windowRangeFail Config.stf1 ⟨0xFFFF, 0xFFFF, 0, 0, 0⟩ = true ∧
    windowRangeFail Config.stf1 ⟨0xFFFF, 0xFFFE, 0xFFFF, 0xFFFE, 0⟩ = true ∧
    windowRangeFail Config.stf1 ⟨161, 160, 0, 0, 0⟩ = true ∧
    windowRangeFail { Config.stf1 with surfaceW := 1, surfaceH := 1 } ⟨0, 0, 0, 0, 0⟩ = false := by decide

/-- S3. -/
theorem test_fill : exec (.fill 3#16) (operands 0#16 0#16 0#16 0#16 0xF800#16) =
    .next { operands 0#16 0#16 0#16 0#16 0xF800#16 with
      pending := [⟨.cmd, .byte 0x2C#8⟩, ⟨.data, .word 0xF800#16⟩, ⟨.data, .word 0xF800#16⟩,
        ⟨.data, .word 0xF800#16⟩] } := rfl

/-- S1: a count of 0 sends the RAM-write command alone. -/
theorem test_fill_zero : exec (.fill 0#16) (operands 0#16 0#16 0#16 0#16 0x1234#16) =
    .next { operands 0#16 0#16 0#16 0#16 0x1234#16 with pending := [⟨.cmd, .byte 0x2C#8⟩] } := rfl

/-! ## The register window (X1 to X12) -/

/-- X3: an illegal word while BUSY sets OVR and not ILL. -/
theorem test_overrun_not_decoded : step (waiting.hostNext (writeAt waiting.cfg 0x18 0x06000000#32)) =
    .next { waiting with ovr := true, hostLog := [.written] } := rfl

/-- X2. -/
theorem test_illegal_word : step (State.reset.hostNext (writeAt State.reset.cfg 0x18 0x06000000#32)) =
    .next { State.reset with ill := true, hostLog := [.written] } := rfl

/-- X5, X6, X7: STATUS = 0x0000000C, and what three writes leave of it. -/
theorem test_status_write_clears :
    ({ State.reset with ill := true, ovr := true } : State).statusWord = 0x0000000C#32 ∧
    (State.writeStatus 0x00000004#32 { State.reset with ill := true, ovr := true }).statusWord = 0x00000008#32 ∧
    (State.writeStatus 0x00000003#32 { State.reset with ill := true, ovr := true }).statusWord = 0x0000000C#32 ∧
    (State.writeStatus 0xFFFFFFFF#32 { State.reset with ill := true, ovr := true }).statusWord = 0x00000000#32 := by
  decide

/-- X4: RERR stays, and F7: BUSY is bit 0. -/
theorem test_status_bits :
    ({ State.reset with rerr := true, ill := true } : State).statusWord = 0x00000006#32 ∧
    waiting.statusWord = 0x00000001#32 := by decide

/-- X8. -/
theorem test_operand_write_read :
    step (State.reset.hostNext (writeAt State.reset.cfg 0x04 0xABCD1234#32)) =
      .next { State.reset with x0 := 0x1234#16, hostLog := [.written] } ∧
    (operands 0x1234#16 0#16 0#16 0#16 0#16).readReg .x0 = 0x00001234#32 := ⟨rfl, by decide⟩

/-- X11, X12: an 8-bit write at `BASE + 0x18`, and a 32-bit read at `BASE + 0x02`. -/
theorem test_bus_error :
    step (State.reset.hostNext (.access ⟨0x18, 8, .write 0x01#32⟩)) =
      .next { State.reset with hostLog := [.busError] } ∧
    step (State.reset.hostNext (.access ⟨0x02, 32, .read⟩)) =
      .next { State.reset with hostLog := [.busError] } := ⟨rfl, rfl⟩

/-! ## The sequencer, the transport and reset (2.6, 2.7) -/

theorem test_sequencer_cs : step (accepted.turnNext .sequencer) = .next selected := rfl
theorem test_sequencer_dc : step (selected.turnNext .sequencer) = .next driven := rfl
theorem test_sequencer_xfer : step (driven.turnNext .sequencer) = .next waiting := rfl
theorem test_transport_done : step (waiting.turnNext (.transport 0xFF5A#16)) = .next releasing := rfl
theorem test_sequencer_release : step (releasing.turnNext .sequencer) =
    .next { State.reset with
      history := [.cs true, .dc .cmd, .xb 0x2A#8, .done (.byte 0x5A#8), .cs false] } := rfl

/-- `DONE` is no event of the trace (2.6). -/
theorem test_trace_leaves_out_done : releasing.trace = [.cs true, .dc .cmd, .xb 0x2A#8] := by decide

/-- RS2: a reset before `DONE`. -/
theorem test_reset_in_transfer : step (waiting.turnNext (.reset .data)) =
    .next { State.reset with dc := .data, history := [.cs true, .dc .cmd, .xb 0x2A#8, .rst] } := rfl

/-- Vector F4's line, and with `CS_ACTIVE_LOW` an asserted chip-select is a low pin. -/
theorem test_line_and_pin :
    serialLine .cmd (frameD16 0x1234#16).events = [(.data, 0x12#8), (.data, 0x34#8)] ∧
    selected.csPin = false ∧ accepted.csPin = true := by decide

/-! ## Host programs -/

/-- P2: RECT of descending corners, with 12 pixels. -/
theorem test_rect : rect Config.stf1 5#16 2#16 4#16 2#16 0x07E0#16 =
    some [writeAt Config.stf1 0x04 2#32, writeAt Config.stf1 0x08 5#32, writeAt Config.stf1 0x0C 2#32,
      writeAt Config.stf1 0x10 4#32, .wait, writeAt Config.stf1 0x18 0x04000000#32, .checkRange,
      writeAt Config.stf1 0x14 0x07E0#32, .wait, writeAt Config.stf1 0x18 0x0500000C#32] := by decide

/-- P4: the boot program of a table of two records. -/
theorem test_runInit :
    runInit Config.stf1 [0x02#8, 0x01#8, 0x00#8, 0x3A#8, 0x05#8, 0x00#8, 0x0A#8, 0x29#8] =
    some [.wait, writeAt Config.stf1 0x18 0x0100003A#32, .wait, writeAt Config.stf1 0x18 0x02000005#32,
      .wait, .delay 0x00#8, .wait, writeAt Config.stf1 0x18 0x01000029#32, .wait, .delay 0x0A#8] := by decide

/-- I1: a table with one byte too few, and one with a byte too many. -/
theorem test_malformed_table :
    runInit Config.stf1 [0x01#8, 0x01#8, 0x00#8, 0x3A#8] = none ∧
    runInit Config.stf1 [0x01#8, 0x00#8, 0x00#8, 0x3A#8, 0x05#8] = none := by decide

/-- CLEAR is 20930 pixels with R5's values, and is refused where `W*H` exceeds 16 bits (R79). -/
theorem test_clear :
    ((clear Config.stf1 0#16).map fun p => p.getLast?) =
      some (some (writeAt Config.stf1 0x18 0x050051C2#32)) ∧
    clear { Config.stf1 with surfaceW := 512, surfaceH := 128 } 0#16 = none := by decide

/-- R79: 90601 pixels have no FILL word; at 161×130 the window is out of range and RECT is SETWIN alone, which stops; at
400×400 the window passes and the assembler refuses RECT. -/
theorem test_rect_too_large :
    rect Config.stf1 0#16 300#16 0#16 300#16 0#16 = some (setwin Config.stf1 0#16 300#16 0#16 300#16) ∧
    rect { Config.stf1 with surfaceW := 400, surfaceH := 400 } 0#16 300#16 0#16 300#16 0#16 = none := by decide

/-! ## Error-free runs (R172) -/

/-- SET_WINDOW of columns 0 to `x1` and then the statements given, all of them the host's turns. -/
def windowThen (x1 : Half) (after : List HostStmt) : State :=
  { operands 0#16 x1 0#16 0#16 0#16 with
    program := writeAt Config.stf1 0x18 0x04000000#32 :: after
    turns := .host :: after.map fun _ => .host }

/-- A window that passes and is read back by a plain `RD 0x00`; one that fails and is read back so; one that fails and
the program does not depend on; one that passes and is never read back; one that is read back after the next command. -/
theorem test_errorFreeRun :
    errorFreeRun (fun _ => true) 2 (windowThen 5#16 [readAt Config.stf1 0x00]) = true ∧
    errorFreeRun (fun _ => true) 2 (windowThen 161#16 [readAt Config.stf1 0x00]) = false ∧
    errorFreeRun (fun _ => false) 2 (windowThen 161#16 [readAt Config.stf1 0x00]) = true ∧
    errorFreeRun (fun _ => true) 2 (windowThen 5#16 [readAt Config.stf1 0x04]) = false ∧
    errorFreeRun (fun _ => true) 3
      (windowThen 161#16 [writeAt Config.stf1 0x18 0x05000001#32, readAt Config.stf1 0x00]) = false := by decide

/-! ## The invariant at the states of the tests -/

theorem inv_reset : Inv State.reset where
  idle_phase := by decide
  cs_asserted := by decide
  req_head := by decide
  dc_head := fun h => by cases h
  cmd_byte := fun f h => by cases h
  pending_length := by decide
  rerr_idle := by decide
  bus_order := by decide

theorem inv_accepted : Inv accepted where
  idle_phase := by decide
  cs_asserted := by decide
  req_head := by decide
  dc_head := fun h => by cases h
  cmd_byte := fun f h _ => ⟨0x2A#8, by simp only [accepted, List.mem_singleton] at h; subst h; rfl⟩
  pending_length := by decide
  rerr_idle := by decide
  bus_order := by decide

theorem inv_waiting : Inv waiting where
  idle_phase := by decide
  cs_asserted := by decide
  req_head := by decide
  dc_head := fun _ f rest h => by cases h; rfl
  cmd_byte := inv_accepted.cmd_byte
  pending_length := by decide
  rerr_idle := by decide
  bus_order := by decide

theorem inv_afterTwoFrames : Inv afterTwoFrames where
  idle_phase := by decide
  cs_asserted := by decide
  req_head := by decide
  dc_head := fun h => by cases h
  cmd_byte := fun f h => by cases h
  pending_length := by decide
  rerr_idle := by decide
  bus_order := by decide

/-! ## Witnesses: the hypotheses of each statement, met together -/

theorem witness_DecodeEncodeAgree : decode 0x0500FFFF#32 = some (.fill 0xFFFF#16) := by decide

theorem witness_OpcodeMapIsExact :
    0x010000FF#32 &&& 0xFFFFFF00#32 = 0x01000000#32 ∧ 0x02000000#32 &&& 0xFFFFFF00#32 = 0x02000000#32 ∧
    0x0300FFFF#32 &&& 0xFFFF0000#32 = 0x03000000#32 ∧ 0x04000000#32 &&& 0xFFFFFFFF#32 = 0x04000000#32 ∧
    0x0500FFFF#32 &&& 0xFFFF0000#32 = 0x05000000#32 ∧ (decode 0x0300FFFF#32).isSome = true := by decide

theorem witness_IllegalWordsAreDiscarded :
    (decode 0x06000000#32 = none ∧ State.reset.pending = []) ∧
    (decode 0x06000000#32 = none ∧ waiting.pending ≠ []) := by decide

/-- Each item of R74 at the edge of its range. -/
theorem witness_IllegalWordsAreDiscarded_edges :
    decode 0x00000000#32 = none ∧ decode 0x06000000#32 = none ∧ decode 0x0501FFFF#32 = none ∧
    decode 0x01000100#32 = none ∧ decode 0x0200FFFF#32 = none ∧ decode 0x04000001#32 = none ∧
    decode 0x05000000#32 ≠ none := by decide

theorem witness_AssemblerRefusesWhatDoesNotFit :
    assemble (.sendCmd 255) = some (.sendCmd 0xFF#8) ∧ assemble (.sendData8 255) = some (.sendData8 0xFF#8) ∧
    assemble (.sendData16 65535) = some (.sendData16 0xFFFF#16) ∧ assemble .setWindow = some .setWindow ∧
    assemble (.fill 65535) = some (.fill 0xFFFF#16) ∧ assemble (.sendCmd 256) = none ∧
    assemble (.fill 65536) = none := by decide

theorem witness_StepRunsDecodedCommand : decode 0x04000000#32 = some .setWindow := by decide

theorem witness_CommandPortAccepts :
    waiting.pending ≠ [] ∧ (State.reset.pending = [] ∧ decode 0x06000000#32 = none) ∧
    decode 0x04000000#32 = some .setWindow ∧ (opFrames Config.stf1 .setWindow ⟨0, 0, 0, 0, 0⟩ ≠ []) := by decide

theorem witness_PlacedWordRunsNext : decodeTableWord 32 0x050000FF = some (.fill 0x00FF#16) := by decide

theorem witness_idle : State.reset.pending = [] ∧ (operands 0#16 160#16 0#16 129#16 0#16).pending = [] := by decide

theorem witness_WindowCommandCompletes :
    (let s := operands 0#16 160#16 0#16 129#16 0#16
     s.x0.toNat ≤ s.x1.toNat ∧ s.x1.toNat < s.cfg.surfaceW ∧ s.y0.toNat ≤ s.y1.toNat ∧
       s.y1.toNat < s.cfg.surfaceH) ∧
    (let s := operands 1#16 0#16 0#16 0#16 0#16; s.pending = [] ∧ s.x1.toNat < s.x0.toNat) ∧
    (let s := operands 0#16 161#16 0#16 0#16 0#16; s.pending = [] ∧ s.cfg.surfaceW ≤ s.x1.toNat) ∧
    (let s := operands 0#16 0#16 1#16 0#16 0#16; s.pending = [] ∧ s.y1.toNat < s.y0.toNat) ∧
    (let s := operands 0#16 0#16 0#16 130#16 0#16; s.pending = [] ∧ s.cfg.surfaceH ≤ s.y1.toNat) := by decide

theorem witness_CommandFrame :
    (State.reset.pending = [] ∧ exec (.sendCmd 0x2A#8) State.reset = .next accepted) ∧
    (waiting.pending ≠ [] ∧ exec .setWindow waiting = .next { waiting with ovr := true }) :=
  ⟨⟨by decide, rfl⟩, by decide, rfl⟩

theorem witness_OverrunIsDropped : waiting.pending ≠ [] := by decide

theorem witness_IllegalWordOnlySetsIll :
    (State.reset.pending = [] ∧ decode 0x00000000#32 = none) ∧
    exec (.sendCmd 0x2A#8) { State.reset with ill := true } = .next { accepted with ill := true } :=
  ⟨by decide, rfl⟩

theorem witness_RangeCheckIsFourComparisons :
    rangeFail Config.stf1 .setWindow ⟨160, 160, 129, 129, 0⟩ = false ∧
    rangeFail Config.stf1 .setWindow ⟨0, 161, 0, 0, 0⟩ = true := by decide

theorem witness_FillFrameCount :
    0 < 2 ∧ (opFrames Config.stf1 (.fill 2#16) ⟨0, 0, 0, 0, 0xAAAA⟩)[2]? = some ⟨.data, .word 0xAAAA#16⟩ := by decide

theorem witness_DcLineTellsCommandFromData :
    frameC 0x2C#8 ∈ opFrames Config.stf1 (.fill 1#16) ⟨0, 0, 0, 0, 7⟩ ∧
    frameD16 7#16 ∈ opFrames Config.stf1 (.fill 1#16) ⟨0, 0, 0, 0, 7⟩ := by decide

theorem witness_OperationDependsOnSnapshotAlone :
    State.reset.pending = [] ∧ afterTwoFrames.pending = [] ∧ State.reset.cfg = afterTwoFrames.cfg ∧
    State.reset.snapshot = afterTwoFrames.snapshot ∧
    (exec (.fill 1#16) State.reset = .next { State.reset with
      pending := [⟨.cmd, .byte 0x2C#8⟩, ⟨.data, .word 0#16⟩] }) ∧
    exec (.fill 1#16) afterTwoFrames = .next { afterTwoFrames with
      pending := [⟨.cmd, .byte 0x2C#8⟩, ⟨.data, .word 0#16⟩] } :=
  ⟨by decide, by decide, by decide, by decide, rfl, rfl⟩

theorem witness_CommandPortIsWriteOnly : decode 0x06000000#32 = decode 0x07000000#32 := by decide

theorem witness_ReservedReadsZeroIgnoresWrites :
    (0x00000004#32).getLsbD 2 = (0xFFFFFFF7#32).getLsbD 2 ∧ (0x00000004#32).getLsbD 3 = (0xFFFFFFF7#32).getLsbD 3 ∧
    (∀ j < 16, (0xABCD1234#32).getLsbD j = (0x00001234#32).getLsbD j) ∧
    step (State.reset.hostNext (readAt State.reset.cfg 0x04)) =
      .next { State.reset with hostLog := State.reset.hostLog ++ [.readData 0#32] } :=
  ⟨by decide, by decide, by decide, rfl⟩

theorem witness_ReadsHaveNoSideEffect :
    step (waiting.hostNext (writeAt waiting.cfg 0x00 0x0000000C#32)) = .next (waiting.logHost .written) ∧
    decode 0x05000000#32 = some (.fill 0#16) ∧ State.reset.pending = [] := ⟨rfl, by decide, by decide⟩

theorem witness_BadAccessGetsBusError :
    State.reset.cfg.base ≤ 0x00 ∧ 0x1F ≤ State.reset.cfg.base + 0x1F ∧ ((16 : Nat) ≠ 32 ∨ 0x00 % 4 ≠ 0) ∧
    ((32 : Nat) ≠ 32 ∨ 0x1F % 4 ≠ 0) ∧ ((64 : Nat) ≠ 32 ∨ 0x18 % 4 ≠ 0) := by decide

/-- The first address above the window, and, with `BASE` = 32, the last one below it. -/
theorem witness_OnlyTheWindowAnswers :
    State.reset.cfg.base + 0x20 ≤ 0x20 ∧ 31 < Config.base { Config.stf1 with baseBlock := 1 } ∧
    State.reset.cfg.base ≤ 0x1F ∧ 0x1F ≤ State.reset.cfg.base + 0x1F := by decide

theorem witness_AtMostOneErrorPerAccess :
    inWindow State.reset.cfg 0x18 = true ∧
    accessError ⟨0x18, 32, .write 0x06000000#32⟩ State.reset = some .illegalCommand ∧
    accessError ⟨0x18, 32, .write 0x06000000#32⟩ waiting = some .commandOverrun ∧
    accessError ⟨0x18, 32, .write 0x04000000#32⟩ (operands 1#16 0#16 0#16 0#16 0#16) = some .rangeError ∧
    accessError ⟨0x1F, 32, .read⟩ State.reset = some .hostBusError ∧
    accessError ⟨0x18, 32, .write 0x04000000#32⟩ State.reset = none ∧
    step (State.reset.hostNext (.access ⟨0x18, 32, .write 0x06000000#32⟩)) =
      .next { State.reset.logHost .written with ill := true } :=
  ⟨by decide, by decide, by decide, by decide, by decide, by decide, rfl⟩

theorem witness_RerrHoldsLastResult :
    (waiting.pending ≠ [] ∨ decode 0x0100002A#32 = none) ∧ (State.reset.pending ≠ [] ∨ decode 0#32 = none) ∧
    (let s := operands 1#16 0#16 0#16 0#16 0#16
     step (s.hostNext (writeAt s.cfg 0x18 0x04000000#32)) =
       .next { s with rerr := true, hostLog := [.written] } ∧ true ≠ s.rerr) :=
  ⟨by decide, by decide, rfl, by decide⟩

theorem witness_IllSetAndCleared :
    (let s := State.reset.hostNext (writeAt State.reset.cfg 0x18 0x00000000#32)
     step s = .next { State.reset with ill := true, hostLog := [.written] } ∧
       s.nextWrite = some (.cmd, 0x00000000#32) ∧ decode 0x00000000#32 = none ∧ s.pending = [] ∧ s.ill = false) ∧
    (let s := State.hostNext (writeAt State.reset.cfg 0x00 0x00000004#32) { State.reset with ill := true }
     step s = .next { State.reset with hostLog := [.written] } ∧ s.ill = true) :=
  ⟨⟨rfl, by decide, by decide, by decide, by decide⟩, rfl, by decide⟩

theorem witness_OvrSetAndCleared :
    (let s := waiting.hostNext (writeAt waiting.cfg 0x18 0x0100002A#32)
     step s = .next { waiting with ovr := true, hostLog := [.written] } ∧
       s.nextWrite = some (.cmd, 0x0100002A#32) ∧ s.pending ≠ [] ∧ s.ovr = false) ∧
    (let s := State.hostNext (writeAt State.reset.cfg 0x00 0x00000008#32) { State.reset with ovr := true }
     step s = .next { State.reset with hostLog := [.written] } ∧ s.ovr = true) :=
  ⟨⟨rfl, by decide, by decide, by decide⟩, rfl, by decide⟩

theorem witness_BusyRisesAndFalls :
    (step (State.reset.hostNext (writeAt State.reset.cfg 0x18 0x0100002A#32)) =
      .next { accepted with hostLog := [.written] } ∧ State.reset.pending = [] ∧ accepted.pending ≠ []) ∧
    (step (releasing.turnNext .sequencer) = .next { State.reset with
      history := [.cs true, .dc .cmd, .xb 0x2A#8, .done (.byte 0x5A#8), .cs false] } ∧ releasing.pending ≠ []) ∧
    (let s := operands 1#16 0#16 0#16 0#16 0#16
     s.pending = [] ∧ rangeFail s.cfg .setWindow s.snapshot = true ∧
       exec .setWindow s = .next { s with rerr := true }) ∧
    (decode 0x0100002A#32 = some (.sendCmd 0x2A#8) ∧
      opFrames State.reset.cfg (.sendCmd 0x2A#8) State.reset.snapshot ≠ []) ∧
    releasing.phase = .pRel ∧ releasing.pending.length = 1 :=
  ⟨⟨rfl, by decide, by decide⟩, ⟨rfl, by decide⟩, ⟨by decide, by decide, rfl⟩, ⟨by decide, by decide⟩, by decide,
    by decide⟩

theorem witness_SequencerSteps :
    (accepted.pending = [frameC 0x2A#8] ∧ accepted.phase = .pCs) ∧ selected.phase = .pDc ∧
    (driven.phase = .pXfer ∧ (frameC 0x2A#8).payload = .byte 0x2A#8) ∧ (frameD16 1#16).payload = .word 1#16 ∧
    waiting.phase = .pWait ∧ releasing.phase = .pRel := by decide

theorem witness_TransportHandshake :
    waiting.req = some (.byte 0x2A#8) ∧ driven.req = none ∧ Inv waiting ∧
    (∀ u ∈ (waiting.turnNext .sequencer).turns.head?, u.endsStall = false) ∧
    step (waiting.turnNext .sequencer) = .next waiting ∧
    step (waiting.turnNext (.transport 0xFF5A#16)) = .next releasing :=
  ⟨by decide, by decide, inv_waiting, by decide, rfl, rfl⟩

theorem witness_StallLastsUntilReset :
    let s : State := { waiting with turns := [.sequencer, .host], program := [.wait] }
    Inv s ∧ s.phase = .pWait ∧ (∀ u ∈ s.turns.take 2, u.endsStall = false) ∧
    Sys2Proof.core.run 2 s = .next { waiting with program := [.wait], hostLog := [.readData 1#32] } ∧
    (∀ u ∈ s.turns.take 1, u = .sequencer) :=
  ⟨{ idle_phase := by decide
     cs_asserted := by decide
     req_head := by decide
     dc_head := inv_waiting.dc_head
     cmd_byte := inv_waiting.cmd_byte
     pending_length := by decide
     rerr_idle := by decide
     bus_order := by decide }, by decide, by decide, rfl, by decide⟩

theorem witness_DcDrivenOnlyInItsPhase :
    step (dataSelected.turnNext .sequencer) = .next { dataSelected with
      dc := .data, phase := .pXfer, history := [.cs true, .dc .data] } ∧ Dc.data ≠ dataSelected.dc :=
  ⟨rfl, by decide⟩

theorem witness_StepKeepsInvariant :
    Inv State.reset ∧ step State.reset = .next State.reset ∧ Inv waiting ∧
    step (waiting.turnNext (.transport 0xFF5A#16)) = .next releasing := ⟨inv_reset, rfl, inv_waiting, rfl⟩

theorem witness_OneTransferPerChipSelect :
    Inv afterTwoFrames ∧
    afterTwoFrames.history = [.cs true, .dc .data] ++ Event.xb 0x12#8 ::
      [.done (.byte 0x00#8), .cs false, .cs true, .dc .data] ++ Event.xb 0x34#8 ::
      [.done (.byte 0x00#8), .cs false] ∧
    (Event.xb 0x12#8).isTransfer = true ∧ (Event.xb 0x34#8).isTransfer = true :=
  ⟨inv_afterTwoFrames, by decide, by decide, by decide⟩

theorem witness_FramesAppearInAcceptOrder :
    Inv waiting ∧ (∀ u ∈ (waiting.turnNext (.transport 0xFF5A#16)).turns.head?, u.isReset = false) ∧
    step (waiting.turnNext (.transport 0xFF5A#16)) = .next releasing := ⟨inv_waiting, by decide, rfl⟩

theorem witness_OperationCompletes :
    let s : State := { accepted with
      turns := [.sequencer, .sequencer, .sequencer, .transport 0x005A#16, .sequencer] }
    Inv s ∧ s.phase = .pCs ∧ [0x005A#16].length = s.pending.length ∧
    s.turns = [0x005A#16].flatMap (fun r => [.sequencer, .sequencer, .sequencer, .transport r, .sequencer]) ++ [] :=
  ⟨{ idle_phase := by decide
     cs_asserted := by decide
     req_head := by decide
     dc_head := fun h => by cases h
     cmd_byte := inv_accepted.cmd_byte
     pending_length := by decide
     rerr_idle := by decide
     bus_order := by decide }, by decide, by decide, by decide⟩

theorem witness_EveryTurnOfItsAgentIsProgress :
    Inv waiting ∧ waiting.pending ≠ [] ∧ waiting.phase = .pWait ∧
    step (waiting.turnNext (.transport 0xFF5A#16)) = .next releasing ∧ step (waiting.turnNext .sequencer) = .next waiting ∧
    Inv accepted ∧ accepted.pending ≠ [] ∧ accepted.phase ≠ .pWait ∧
    step (accepted.turnNext .sequencer) = .next selected ∧
    step (accepted.turnNext (.transport 0#16)) = .next accepted ∧ step (accepted.turnNext .host) = .next accepted :=
  ⟨inv_waiting, by decide, by decide, rfl, rfl, inv_accepted, by decide, by decide, rfl, rfl, rfl⟩

theorem witness_HostCannotDisturbOperation :
    Inv waiting ∧ waiting.pending ≠ [] ∧ (waiting.turnNext .host).turns = .host :: [] ∧
    step (waiting.turnNext .host) = .next waiting := ⟨inv_waiting, by decide, by decide, rfl⟩

theorem witness_ResetAbandonsOperation :
    step (waiting.turnNext (.reset .cmd)) =
      .next { State.reset with history := [.cs true, .dc .cmd, .xb 0x2A#8, .rst] } ∧
    Inv afterTwoFrames ∧ afterTwoFrames.pending = [] ∧
    step (State.reset.turnNext (.reset .data)) = .next { State.reset with dc := .data, history := [.rst] } :=
  ⟨rfl, inv_afterTwoFrames, by decide, rfl⟩

theorem witness_IdleBlockEmitsNothing :
    Inv State.reset ∧ State.reset.pending = [] ∧ step (State.reset.turnNext .sequencer) = .next State.reset :=
  ⟨inv_reset, by decide, rfl⟩

theorem witness_ParametersNeverChange :
    Sys2Proof.core.run 1 (waiting.turnNext (.reset .cmd)) =
      .next { State.reset with history := [.cs true, .dc .cmd, .xb 0x2A#8, .rst] } := rfl

theorem witness_FinalStatusShowsIllAndOvrNeverSet :
    let s := State.reset.hostNext (writeAt State.reset.cfg 0x18 0x0100002A#32)
    Sys2Proof.core.run 1 s = .next { accepted with hostLog := [.written] } ∧
    (∀ u ∈ s.turns.take 1, u.isReset = false) ∧ (∀ st ∈ s.program, st.clearsErrors s.cfg = false) ∧
    accepted.statusWord.getLsbD 2 = false ∧ accepted.statusWord.getLsbD 3 = false :=
  ⟨rfl, by decide, by decide, by decide, by decide⟩

theorem witness_OutputPins :
    State.reset.cfg.csActiveLow = true ∧ Config.csActiveLow { Config.stf1 with csActiveLow := false } = false := by
  decide

theorem witness_HostPollStatements :
    waiting.pending ≠ [] ∧ State.reset.pending = [] ∧ State.reset.rerr = false ∧
    State.rerr { State.reset with rerr := true } = true := by decide

theorem witness_RectangleInsideSurfaceAssembles :
    rangeFail Config.stf1 .setWindow ⟨lower 5#16 2#16, upper 5#16 2#16, lower 4#16 2#16, upper 4#16 2#16, 0⟩ = false ∧
    Config.stf1.surfaceW * Config.stf1.surfaceH ≤ 0xFFFF := by decide

theorem witness_InitTableReadsBack :
    [InitRecord.mk 0x00#8 0x3A#8 [0x05#8]].length < 256 ∧
    (∀ r ∈ [InitRecord.mk 0x00#8 0x3A#8 [0x05#8]], r.args.length < 256) ∧
    initTable [0x01#8, 0x01#8, 0x00#8, 0x3A#8, 0x05#8] = some [⟨0x00#8, 0x3A#8, [0x05#8]⟩] := by decide

theorem witness_ErrorFreeRunDependsOnPassedWindows :
    let s := windowThen 5#16 [readAt Config.stf1 0x00]
    errorFreeRun (fun _ => true) 2 s = true ∧ s.nextWrite = some (.cmd, 0x04000000#32) ∧ s.pending = [] ∧
    decode 0x04000000#32 = some .setWindow := by decide

/-- A program with SETWIN at its head whose window fails at `x1 = W`, and the boundary values of the other conditions. -/
theorem witness_FailedWindowStopsBeforeTheFill :
    let s : State := { State.reset with
      program := setwin State.reset.cfg 0#16 161#16 0#16 0#16 ++ [.wait], turns := List.replicate 7 .host ++ [] }
    s.pending = [] ∧ s.program = setwin s.cfg 0#16 161#16 0#16 0#16 ++ [.wait] ∧
    s.turns = List.replicate 7 .host ++ [] ∧ s.cfg.surfaceW ≤ (161#16).toNat ∧ s.cfg.surfaceH ≤ (130#16).toNat ∧
    (0#16).toNat < (1#16).toNat := by decide

theorem witness_RectangleAssembles :
    Config.stf1.surfaceW * Config.stf1.surfaceH ≤ 0xFFFF ∧
    ((12#16).toNat = span (lower 5#16 2#16) (upper 5#16 2#16) * span (lower 4#16 2#16) (upper 4#16 2#16)) ∧
    0xFFFF < span (lower 0#16 255#16) (upper 0#16 255#16) * span (lower 0#16 255#16) (upper 0#16 255#16) ∧
    rangeFail Config.stf1 .setWindow ⟨0, 255, 0, 255, 0⟩ = true ∧
    rangeFail { Config.stf1 with surfaceW := 256, surfaceH := 256 } .setWindow ⟨0, 255, 0, 255, 0⟩ = false := by
  decide

end Sys2Proof.Tests
end

section
/-! SUPPORT. The parameters of R5 along every run: each agent's turn keeps `cfg`, so a step does, so a run does. -/

namespace Sys2Proof.Machine

/-- What every step keeps, every run keeps. -/
theorem run_preserves {P : State → Prop} (hstep : ∀ s t, step s = .next t → P s → P t) {k : Nat} {s t : State}
    (h : Sys2Proof.core.run k s = .next t) (hs : P s) : P t := by
  induction k generalizing s with
  | zero =>
    rw [run_zero] at h
    injection h with h
    exact h ▸ hs
  | succ k ih =>
    obtain ⟨u, hu, hrun⟩ := run_succ_next h
    exact ih hrun (hstep s u hu hs)

@[simp] theorem seqStep_cfg (s : State) : (seqStep s).cfg = s.cfg := by rw [seqStep_frame]

@[simp] theorem transportStep_cfg (r : Half) (s : State) : (transportStep r s).cfg = s.cfg := by
  rw [transportStep_frame]

/-- No host access, poll or delay writes a parameter. -/
theorem HostEffect.cfg_eq {s t : State} {ts : List Turn} (e : HostEffect s ts t) : t.cfg = s.cfg := by
  cases e with
  | quiet => rfl
  | operand => rfl
  | status => rfl
  | overrun => rfl
  | illegal => rfl
  | accepted => rfl

/-- No agent's turn writes a parameter, a reset included (R5, R180). -/
theorem step_cfg {s t : State} (h : step s = .next t) : t.cfg = s.cfg := by
  cases step_effect h with
  | stays => rfl
  | host ts _ _ e => exact e.cfg_eq
  | sequencer ts => exact seqStep_cfg { s with turns := ts }
  | transport r ts => exact transportStep_cfg r { s with turns := ts }
  | reset d ts => exact State.resetStep_cfg d { s with turns := ts }

/-- Settles O45: a step keeps `cfg`, so by induction on its length a run does. -/
theorem parametersNeverChange : Obligations.ParametersNeverChange := by
  intro k s t h
  exact run_preserves (P := fun u => u.cfg = s.cfg) (fun _ _ hu hs => (step_cfg hu).trans hs) h rfl

end Sys2Proof.Machine
end

section
/-! SUPPORT. The invariant of the block (R31, R32, R93, R95, R103): how to establish it between two frames and inside
one, and that every agent's turn keeps it. -/

namespace Sys2Proof.Machine

/-- Between two frames the invariant asks for released lines, lawful frames and the bus order alone. -/
theorem inv_of_betweenFrames {s : State} (hphase : s.phase = .pCs) (hcs : s.cs = false) (hreq : s.req = none)
    (hcmd : ∀ f ∈ s.pending, f.dc = .cmd → ∃ b, f.payload = .byte b) (hlen : s.pending.length ≤ 65536)
    (hrerr : s.rerr = true → s.pending = []) (hbus : busPhase s.history = some .pCs) : Inv s where
  idle_phase _ := hphase
  cs_asserted := by simp [hphase, hcs]
  req_head := by simp [State.expectedReq, hphase, hreq]
  dc_head := by simp [hphase, Phase.dcDriven]
  cmd_byte := hcmd
  pending_length := hlen
  rerr_idle := hrerr
  bus_order := by rw [hbus, hphase]

/-- A move of the head frame's phase, with chip-select asserted, keeps the invariant if the request, the data/command
line and the bus order fit the new phase. -/
theorem Inv.inFrame {s t : State} {f : Frame} {rest : List Frame} (h : Inv s) (hp : s.pending = f :: rest)
    (hpt : t.pending = s.pending) (hrerr : t.rerr = s.rerr) (hphase : t.phase ≠ .pCs) (hcs : t.cs = true)
    (hreq : t.req = t.expectedReq) (hdc : t.phase.dcDriven = true → t.dc = f.dc)
    (hbus : busPhase t.history = some t.phase) : Inv t where
  idle_phase hn := by simp [hpt, hp] at hn
  cs_asserted := by simp [hcs, hphase]
  req_head := hreq
  dc_head hd g _ hg := by
    rw [hpt, hp] at hg
    injection hg with hfg
    rw [hdc hd, hfg]
  cmd_byte := by rw [hpt]; exact h.cmd_byte
  pending_length := by rw [hpt]; exact h.pending_length
  rerr_idle := by rw [hpt, hrerr]; exact h.rerr_idle
  bus_order := hbus

/-- In `P_CS` chip-select is released and no request is outstanding (R32). -/
theorem Inv.released {s : State} (h : Inv s) (hphase : s.phase = .pCs) : s.cs = false ∧ s.req = none := by
  have hcs := h.cs_asserted
  have hreq := h.req_head
  simp only [State.expectedReq, hphase] at hcs hreq
  exact ⟨by simpa using hcs, hreq⟩

/-- Inside a frame chip-select is asserted (R32). -/
theorem Inv.asserted {s : State} (h : Inv s) (hphase : s.phase ≠ .pCs) : s.cs = true := h.cs_asserted.2 hphase

/-- Outside `P_WAIT` no request is outstanding (R32). -/
theorem Inv.req_none {s : State} (h : Inv s) (hphase : s.phase ≠ .pWait) : s.req = none := by
  cases hr : s.req with
  | none => rfl
  | some p => exact absurd (h.req_eq_some hr).1 hphase

/-- One event more that R95 allows in the present phase leads to the phase it allows next. -/
theorem Inv.busPhase_append {s : State} (h : Inv s) {e : Event} {p : Phase} (hn : busNext s.phase e = some p) :
    busPhase (s.history ++ [e]) = some p := by
  rw [busPhase_append_one, h.bus_order, Option.bind_some, hn]

/-- Which agent moves next is no part of the invariant. -/
theorem Inv.setTurns {s : State} (h : Inv s) (ts : List Turn) : Inv { s with turns := ts } :=
  h.congr rfl rfl rfl rfl rfl rfl rfl

/-- The block is idle and released after power-on (R35). -/
theorem inv_powerOn (c : Config) (d : Dc) : Inv (State.powerOn c d) :=
  inv_of_betweenFrames rfl rfl rfl (by simp [State.powerOn]) (by simp [State.powerOn]) (fun _ => rfl) rfl

/-- A reset leaves the block idle and released, and `RST` may come at any place among the events (R180, R181). -/
theorem Inv.after_reset {s : State} (h : Inv s) (d : Dc) : Inv (resetStep d s) :=
  inv_of_betweenFrames rfl rfl rfl (by simp) (by simp) (fun _ => rfl)
    (h.busPhase_append (by cases s.phase <;> rfl))

/-- An accept with BUSY = 0 puts lawful frames behind a released chip-select, and none where the range check failed. -/
theorem Inv.after_accept {s t : State} (h : Inv s) (hidle : s.pending = []) (i : Instr)
    (hrerr : t.rerr = rangeFail s.cfg i s.snapshot) (hp : t.pending = opFrames s.cfg i s.snapshot)
    (hphase : t.phase = .pCs) (hcs : t.cs = s.cs) (hreq : t.req = s.req) (hhist : t.history = s.history) : Inv t := by
  have hs : s.phase = .pCs := h.idle_phase hidle
  obtain ⟨hcs0, hreq0⟩ := h.released hs
  refine inv_of_betweenFrames hphase (hcs.trans hcs0) (hreq.trans hreq0) ?_ ?_ ?_ ?_
  · rw [hp]; exact opFrames_cmd_byte
  · rw [hp]; exact opFrames_length_le _ _ _
  · rw [hp, hrerr]; exact opFrames_of_rangeFail
  · rw [hhist, h.bus_order, hs]

/-- A host step changes what the invariant speaks of by an accept alone. -/
theorem HostEffect.inv {s t : State} {ts : List Turn} (e : HostEffect s ts t) (h : Inv s) : Inv t := by
  cases e with
  | quiet => exact h.congr rfl rfl rfl rfl rfl rfl rfl
  | operand => exact h.congr rfl rfl rfl rfl rfl rfl rfl
  | status => exact h.congr rfl rfl rfl rfl rfl rfl rfl
  | overrun => exact h.congr rfl rfl rfl rfl rfl rfl rfl
  | illegal => exact h.congr rfl rfl rfl rfl rfl rfl rfl
  | accepted _ _ _ i _ hidle _ => exact h.after_accept hidle i rfl rfl rfl rfl rfl rfl

/-- The sequencer's step on a head frame keeps the invariant, phase by phase (R94). -/
theorem Inv.after_seqStepOn {s : State} {f : Frame} {rest : List Frame} (h : Inv s) (hp : s.pending = f :: rest) :
    Inv (seqStepOn f rest s) := by
  cases hphase : s.phase <;> simp only [seqStepOn, hphase]
  case pCs =>
    exact h.inFrame hp rfl rfl nofun rfl (h.released hphase).2 nofun (h.busPhase_append (by rw [hphase]; rfl))
  case pDc =>
    have hcs := h.asserted (by simp [hphase])
    exact h.inFrame hp rfl rfl nofun hcs (h.req_none (by simp [hphase])) (fun _ => rfl)
      (h.busPhase_append (by rw [hphase]; rfl))
  case pXfer =>
    have hcs := h.asserted (by simp [hphase])
    have hdc := h.dc_head (by rw [hphase]; rfl) f rest hp
    exact h.inFrame hp rfl rfl nofun hcs (by simp [State.expectedReq, hp]) (fun _ => hdc)
      (h.busPhase_append (by rw [hphase]; cases f.payload <;> rfl))
  case pWait => exact h
  case pRel =>
    have hcmd := h.cmd_byte
    have hlen := h.pending_length
    have hbusy := h.rerr_idle
    simp only [hp, List.length_cons] at hcmd hlen hbusy
    exact inv_of_betweenFrames rfl rfl (h.req_none (by simp [hphase]))
      (fun g hg => hcmd g (List.mem_cons_of_mem f hg)) (Nat.le_of_succ_le hlen) (fun hr => nomatch hbusy hr)
      (h.busPhase_append (by rw [hphase]; rfl))

/-- The sequencer's turn keeps the invariant (R94). -/
theorem Inv.after_seqStep {s : State} (h : Inv s) : Inv (seqStep s) := by
  cases hp : s.pending with
  | nil => rw [seqStep_of_idle hp]; exact h
  | cons f rest => rw [seqStep_cons hp]; exact h.after_seqStepOn hp

/-- The transport's turn keeps the invariant: its `DONE` comes only in `P_WAIT` (R96). -/
theorem Inv.after_transportStep {s : State} (h : Inv s) (r : Half) : Inv (transportStep r s) := by
  cases hr : s.req with
  | none => rw [transportStep_none hr]; exact h
  | some p =>
    obtain ⟨hphase, hbusy⟩ := h.req_eq_some hr
    obtain ⟨f, rest, hp⟩ := List.exists_cons_of_ne_nil hbusy
    have hdc := h.dc_head (by rw [hphase]; rfl) f rest hp
    rw [transportStep_some hr]
    exact h.inFrame hp rfl rfl nofun (h.asserted (by simp [hphase])) rfl (fun _ => hdc)
      (h.busPhase_append (by rw [hphase]; rfl))

/-- Settles O36, by the agent whose turn the step is. -/
theorem stepKeepsInvariant : Obligations.StepKeepsInvariant := by
  intro s t h hs
  cases step_effect hs with
  | stays => exact h
  | host _ _ _ e => exact e.inv h
  | sequencer ts => exact (h.setTurns ts).after_seqStep
  | transport r ts => exact (h.setTurns ts).after_transportStep r
  | reset d ts => exact (h.setTurns ts).after_reset d

/-- Settles O35: the block is idle and released after power-on, and `State.reset` is one such state. -/
theorem powerOnMeetsInvariant : Obligations.PowerOnMeetsInvariant :=
  ⟨inv_powerOn, inv_powerOn Config.stf1 .cmd⟩

end Sys2Proof.Machine
end

section
/-! SUPPORT. The register window of 10_state.md, register by register (R26 to R29), and the pins (R32). -/

namespace Sys2Proof.Machine

/-- The five operand registers (R27). -/
def operandRegs : List Reg := [.x0, .x1, .y0, .y1, .color]

/-- The offsets of the operand registers (R20). -/
theorem operandRegs_offsets : operandRegs.map Reg.offset = [0x04, 0x08, 0x0C, 0x10, 0x14] := rfl

/-- An operand register takes the low 16 bits of what is written, and nothing else of it (R27). -/
theorem writeReg_congr_operandBits {r : Reg} (hr : r ∈ operandRegs) {v v' : Word}
    (h : operandBits v = operandBits v') (s : State) : writeReg r v s = writeReg r v' s := by
  cases r with
  | status | cmd | reserved => simp [operandRegs] at hr
  | x0 | x1 | y0 | y1 | color => simp only [writeReg, h]

/-- Words that agree on bits 15 to 0 have the same operand bits. -/
theorem operandBits_congr {v v' : Word} (h : ∀ j < 16, v.getLsbD j = v'.getLsbD j) :
    operandBits v = operandBits v' := by
  apply BitVec.eq_of_getLsbD_eq
  intro j hj
  simp only [operandBits, BitVec.getLsbD_extractLsb', Nat.zero_add, h j hj]

/-- Bits 31 to 16 of a zero-extended value are 0. -/
theorem zext32_high (x : Half) {j : Nat} (h : 16 ≤ j) : (zext32 x).getLsbD j = false := by
  rw [zext32, BitVec.getLsbD_setWidth, BitVec.getLsbD_of_ge _ _ h, Bool.and_false]

/-- No register reads with a bit set above bit 15 (R26 to R29). -/
theorem readReg_high (r : Reg) (s : State) {j : Nat} (h : 16 ≤ j) : (s.readReg r).getLsbD j = false := by
  cases r with
  | status => exact statusWord_high s (by omega)
  | x0 | x1 | y0 | y1 | color => exact zext32_high _ h
  | cmd | reserved => exact BitVec.getLsbD_zero

/-- Bit 0 of a STATUS read is 1 exactly when `pending` is not empty (R22). -/
theorem statusWord_busy_iff (s : State) : s.statusWord.getLsbD 0 = true ↔ s.pending ≠ [] := by
  rw [statusWord_bit0, busy_eq_true_iff]

/-- Bit 0 of a STATUS read of an idle block (R22). -/
theorem statusWord_idle {s : State} (h : s.pending = []) : s.statusWord.getLsbD 0 = false := by
  rw [statusWord_bit0, (busy_eq_false_iff s).2 h]

/-- Bits 2 and 3 are all that a STATUS write looks at (R26). -/
theorem writeStatus_congr {v v' : Word} (h2 : v.getLsbD 2 = v'.getLsbD 2) (h3 : v.getLsbD 3 = v'.getLsbD 3)
    (s : State) : s.writeStatus v = s.writeStatus v' := by
  simp only [State.writeStatus, h2, h3]

/-- A STATUS write as a choice on each of its two bits (R26). -/
theorem writeStatus_eq_ite (v : Word) (s : State) : s.writeStatus v = { s with
    ill := if v.getLsbD 2 then false else s.ill, ovr := if v.getLsbD 3 then false else s.ovr } := by
  unfold State.writeStatus
  cases v.getLsbD 2 <;> cases v.getLsbD 3 <;> simp

/-- The command port sees of a word what it decodes to, and nothing else (R28). -/
theorem writeCmd_congr {w w' : Word} (h : decode w = decode w') (s : State) : writeCmd w s = writeCmd w' s := by
  simp only [writeCmd, h]

/-- A host write at the offset of CMD is a write to the command port (R28). -/
theorem step_writeAt_cmd (s : State) (w : Word) :
    step (s.hostNext (writeAt s.cfg 0x18 w)) = writeCmd w (s.logHost .written) :=
  step_writeAt_of_offset .cmd rfl w s

/-- The word a host read at an offset puts in the log is the register's value. -/
theorem readData_of_step_readAt {off : Nat} (r : Reg) (hr : r.offset = off) {s t : State} {v : Word}
    (h : step (s.hostNext (readAt s.cfg off)) = .next t) (hl : t.hostLog = s.hostLog ++ [.readData v]) :
    v = s.readReg r := by
  rw [step_readAt_of_offset r hr] at h
  injection h with h
  subst h
  simpa using hl.symm

/-- Settles O19: the two clearing bits of a write, and the four bits of the word read. -/
theorem statusRegister : Obligations.StatusRegister := by
  intro s
  refine ⟨fun v => ?_, s.statusWord, step_readAt_of_offset .status rfl s, statusWord_busy_iff s,
    statusWord_bit1 s, statusWord_bit2 s, statusWord_bit3 s, fun _ => statusWord_high s⟩
  exact (step_writeAt_of_offset .status rfl v s).trans (congrArg _ (writeStatus_eq_ite v _))

/-- Settles O20: the window's access to each of the five registers, at its offset. -/
theorem operandRegisters : Obligations.OperandRegisters := by
  refine ⟨fun s v => ⟨?_, ?_, ?_, ?_, ?_⟩, fun s => ⟨?_, ?_, ?_, ?_, ?_⟩, fun _ _ => ⟨rfl, rfl, rfl, rfl, rfl⟩⟩
  · exact step_writeAt_of_offset .x0 rfl v s
  · exact step_writeAt_of_offset .x1 rfl v s
  · exact step_writeAt_of_offset .y0 rfl v s
  · exact step_writeAt_of_offset .y1 rfl v s
  · exact step_writeAt_of_offset .color rfl v s
  · exact step_readAt_of_offset .x0 rfl s
  · exact step_readAt_of_offset .x1 rfl s
  · exact step_readAt_of_offset .y0 rfl s
  · exact step_readAt_of_offset .y1 rfl s
  · exact step_readAt_of_offset .color rfl s

/-- Settles O21: a CMD write is `writeCmd`, which looks at the decoded word alone. -/
theorem commandPortIsWriteOnly : Obligations.CommandPortIsWriteOnly :=
  ⟨step_readAt_of_offset .cmd rfl, step_writeAt_cmd, fun s w w' h => by
    rw [step_writeAt_cmd, step_writeAt_cmd, writeCmd_congr h]⟩

/-- Settles O22: what each write looks at, and where each read is 0. -/
theorem reservedReadsZeroIgnoresWrites : Obligations.ReservedReadsZeroIgnoresWrites := by
  refine ⟨fun s v => step_writeAt_of_offset .reserved rfl v s, step_readAt_of_offset .reserved rfl, ?_, ?_, ?_⟩
  · intro s v v' h2 h3
    calc step (s.hostNext (writeAt s.cfg 0x00 v))
        = .next ((s.logHost .written).writeStatus v) := step_writeAt_of_offset .status rfl v s
      _ = .next ((s.logHost .written).writeStatus v') := by rw [writeStatus_congr h2 h3]
      _ = step (s.hostNext (writeAt s.cfg 0x00 v')) := (step_writeAt_of_offset .status rfl v' s).symm
  · intro s v v' h off hoff
    rw [← operandRegs_offsets] at hoff
    obtain ⟨r, hr, rfl⟩ := List.mem_map.1 hoff
    rw [step_hostNext_writeAt, step_hostNext_writeAt, writeReg_congr_operandBits hr (operandBits_congr h)]
  · intro s t v off hoff hs hl
    change off ∈ (Reg.status :: operandRegs).map Reg.offset at hoff
    obtain ⟨r, _, hr⟩ := List.mem_map.1 hoff
    refine ⟨fun h0 j hj => ?_, fun j hj => ?_⟩
    · rw [readData_of_step_readAt .status h0.symm hs hl]
      exact statusWord_high s hj
    · rw [readData_of_step_readAt r hr hs hl]
      exact readReg_high r s hj

/-- Settles O48, by the level of chip-select and the two polarities. -/
theorem outputPins : Obligations.OutputPins := by
  refine ⟨fun s h => ?_, fun s h => ?_, fun d => ?_⟩
  · cases hcs : s.cs <;> simp [State.csPin, h, hcs]
  · cases hcs : s.cs <;> simp [State.csPin, h, hcs]
  · cases d <;> simp [Dc.level]

end Sys2Proof.Machine
end

section
/-! SUPPORT. When each STATUS flag changes (R22 to R25): the command port case by case, what the sequencer's and the
transport's turns leave, what a step that writes CMD does, and what each step may do to each flag. -/

namespace Sys2Proof.Machine

@[simp] theorem seqStep_rerr (s : State) : (seqStep s).rerr = s.rerr := by rw [seqStep_frame]
@[simp] theorem seqStep_ill (s : State) : (seqStep s).ill = s.ill := by rw [seqStep_frame]
@[simp] theorem seqStep_ovr (s : State) : (seqStep s).ovr = s.ovr := by rw [seqStep_frame]

@[simp] theorem transportStep_rerr (r : Half) (s : State) : (transportStep r s).rerr = s.rerr := by
  rw [transportStep_frame]
@[simp] theorem transportStep_ill (r : Half) (s : State) : (transportStep r s).ill = s.ill := by
  rw [transportStep_frame]
@[simp] theorem transportStep_ovr (r : Half) (s : State) : (transportStep r s).ovr = s.ovr := by
  rw [transportStep_frame]
@[simp] theorem transportStep_pending (r : Half) (s : State) : (transportStep r s).pending = s.pending := by
  rw [transportStep_frame]

/-- A CMD write with BUSY = 1 is an overrun (R90). -/
theorem writeCmd_of_busy {s : State} (h : s.pending ≠ []) (w : Word) :
    writeCmd w s = .next { s with ovr := true } := by
  simp [writeCmd, (busy_eq_true_iff s).2 h]

/-- A CMD write of an illegal word with BUSY = 0 (R90). -/
theorem writeCmd_of_illegal {s : State} (h : s.pending = []) {w : Word} (hd : decode w = none) :
    writeCmd w s = .next { s with ill := true } := by
  simp [writeCmd, (busy_eq_false_iff s).2 h, hd]

/-- A CMD write of a legal word with BUSY = 0 (R90). -/
theorem writeCmd_of_legal {s : State} (h : s.pending = []) {w : Word} {i : Instr} (hd : decode w = some i) :
    writeCmd w s = .next { s with
      rerr := rangeFail s.cfg i s.snapshot, pending := opFrames s.cfg i s.snapshot, phase := .pCs } := by
  simp [writeCmd, (busy_eq_false_iff s).2 h, hd, exec_of_idle h]

/-- The range check fails for SET_WINDOW alone, by one of four comparisons (R120). -/
theorem rangeFail_iff (c : Config) (i : Instr) (k : Snapshot) : rangeFail c i k = true ↔ i = .setWindow ∧
    (k.x1.toNat < k.x0.toNat ∨ c.surfaceW ≤ k.x1.toNat ∨ k.y1.toNat < k.y0.toNat ∨ c.surfaceH ≤ k.y1.toNat) := by
  cases i with
  | setWindow => simpa [rangeFail] using windowRangeFail_iff c k
  | sendCmd | sendData8 | sendData16 | fill => simp [rangeFail]

/-- A step that writes a register is a host step with that write. -/
theorem step_hostEffect {s t : State} (h : step s = .next t) {r : Reg} {v : Word}
    (hw : s.nextWrite = some (r, v)) : s.hostWrite = some (r, v) ∧ ∃ ts, HostEffect s ts t := by
  obtain ⟨⟨ts, hn⟩, hw⟩ := nextWrite_eq_some hw
  refine ⟨hw, ts, hostStep_effect ?_⟩
  rwa [step_of_turn hn] at h

/-- A step that writes CMD is the command port's operation, and moves the host on (R28). -/
theorem step_of_cmdWrite {s t : State} (h : step s = .next t) {w : Word} (hw : s.nextWrite = some (.cmd, w)) :
    ∃ ts p l, writeCmd w (s.hostMoved ts p l) = .next t := by
  obtain ⟨hw, ts, e⟩ := step_hostEffect h hw
  cases e with
  | quiet p l hq => nomatch hq _ _ hw
  | operand p l _ _ _ _ _ r v hw' hr =>
    cases hw.symm.trans hw'
    exact absurd rfl hr.1
  | status p l v hw' => cases hw.symm.trans hw'
  | overrun p l w' hw' hb =>
    cases hw.symm.trans hw'
    exact ⟨ts, p, l, writeCmd_of_busy (s := s.hostMoved ts p l) hb w⟩
  | illegal p l w' hw' hb hd =>
    cases hw.symm.trans hw'
    exact ⟨ts, p, l, writeCmd_of_illegal (s := s.hostMoved ts p l) hb hd⟩
  | accepted p l w' i hw' hb hd =>
    cases hw.symm.trans hw'
    exact ⟨ts, p, l, writeCmd_of_legal (s := s.hostMoved ts p l) hb hd⟩

/-- A step that is neither a reset nor the accept of a decoded word leaves RERR as it is (R23). -/
theorem step_rerr_cases {s t : State} (h : step s = .next t) :
    t.rerr = s.rerr ∨ (∃ d ts, s.turns = .reset d :: ts) ∨
    (s.pending = [] ∧ ∃ w i, s.nextWrite = some (.cmd, w) ∧ decode w = some i) := by
  cases step_effect h with
  | stays => exact .inl rfl
  | host ts hn _ e =>
    cases e with
    | quiet | operand | status | overrun | illegal => exact .inl rfl
    | accepted p l w i hw hb hd => exact .inr (.inr ⟨hb, w, i, (nextWrite_of_host hn).trans hw, hd⟩)
  | sequencer ts => exact .inl (seqStep_rerr _)
  | transport r ts => exact .inl (transportStep_rerr r _)
  | reset d ts hn => exact .inr (.inl ⟨d, ts, hn⟩)

/-- How the next step from `s` may change a sticky error bit that bit `k` of a STATUS write clears: it keeps the bit,
writes STATUS, raises the bit for the reason `raises`, or resets (R24 to R26). -/
inductive StickyChange (s : State) (k : Nat) (raises : Prop) (b : Bool) : Bool → Prop
  | kept : StickyChange s k raises b b
  | statusWrite (v : Word) (hw : s.nextWrite = some (.status, v)) : StickyChange s k raises b (b && !v.getLsbD k)
  | raised (h : raises) : StickyChange s k raises b true
  | reset (d : Dc) (ts : List Turn) (hn : s.turns = .reset d :: ts) : StickyChange s k raises b false

/-- A sticky bit rises only for its reason. -/
theorem StickyChange.rises {s : State} {k : Nat} {raises : Prop} {b b' : Bool} (h : StickyChange s k raises b b')
    (hb : b = false) (hb' : b' = true) : raises := by
  cases h with
  | kept => simp [hb] at hb'
  | statusWrite => simp [hb] at hb'
  | raised h => exact h
  | reset => cases hb'

/-- A sticky bit falls only by a STATUS write with its bit set or by a reset. -/
theorem StickyChange.falls {s : State} {k : Nat} {raises : Prop} {b b' : Bool} (h : StickyChange s k raises b b')
    (hb : b = true) (hb' : b' = false) :
    (∃ v, s.nextWrite = some (.status, v) ∧ v.getLsbD k = true) ∨ ∃ d ts, s.turns = .reset d :: ts := by
  cases h with
  | kept => simp [hb] at hb'
  | statusWrite v hw => exact .inl ⟨v, hw, by simpa [hb] using hb'⟩
  | raised => cases hb'
  | reset d ts hn => exact .inr ⟨d, ts, hn⟩

/-- ILL is sticky, and an illegal word written to CMD with BUSY = 0 raises it (R24). -/
theorem step_ill {s t : State} (h : step s = .next t) : StickyChange s 2
    (s.pending = [] ∧ ∃ w, s.nextWrite = some (.cmd, w) ∧ decode w = none) s.ill t.ill := by
  cases step_effect h with
  | stays => exact .kept
  | host ts hn _ e =>
    cases e with
    | quiet | operand | overrun | accepted => exact .kept
    | status p l v hw => exact .statusWrite v ((nextWrite_of_host hn).trans hw)
    | illegal p l w hw hb hd => exact .raised ⟨hb, w, (nextWrite_of_host hn).trans hw, hd⟩
  | sequencer ts => rw [seqStep_ill]; exact .kept
  | transport r ts => rw [transportStep_ill]; exact .kept
  | reset d ts hn => exact .reset d ts hn

/-- OVR is sticky, and any word written to CMD with BUSY = 1 raises it (R25). -/
theorem step_ovr {s t : State} (h : step s = .next t) : StickyChange s 3
    (s.pending ≠ [] ∧ ∃ w, s.nextWrite = some (.cmd, w)) s.ovr t.ovr := by
  cases step_effect h with
  | stays => exact .kept
  | host ts hn _ e =>
    cases e with
    | quiet | operand | illegal | accepted => exact .kept
    | status p l v hw => exact .statusWrite v ((nextWrite_of_host hn).trans hw)
    | overrun p l w hw hb => exact .raised ⟨hb, w, (nextWrite_of_host hn).trans hw⟩
  | sequencer ts => rw [seqStep_ovr]; exact .kept
  | transport r ts => rw [transportStep_ovr]; exact .kept
  | reset d ts hn => exact .reset d ts hn

/-- Settles O27: the accept writes the range check, the two discards do not, and no other turn but a reset can. -/
theorem rerrHoldsLastResult : Obligations.RerrHoldsLastResult := by
  refine ⟨fun i s hb => ⟨_, exec_of_idle hb i, rangeFail_iff s.cfg i s.snapshot⟩, fun w s hd => ?_,
    fun s t h hne => (step_rerr_cases h).resolve_left hne⟩
  rw [step_writeAt_cmd]
  by_cases hb : s.pending = []
  · exact ⟨_, writeCmd_of_illegal (s := s.logHost .written) hb (hd.resolve_left (not_not_intro hb)), rfl⟩
  · exact ⟨_, writeCmd_of_busy (s := s.logHost .written) hb w, rfl⟩

/-- Settles O28: an illegal word's write sets ILL and nothing else of the block, and ILL is sticky. -/
theorem illSetAndCleared : Obligations.IllSetAndCleared := by
  refine fun s t h => ⟨fun w hw hd hb => ?_, (step_ill h).rises, (step_ill h).falls⟩
  obtain ⟨ts, p, l, hc⟩ := step_of_cmdWrite h hw
  cases (writeCmd_of_illegal (s := s.hostMoved ts p l) hb hd).symm.trans hc
  exact ⟨rfl, hb, rfl, rfl, rfl⟩

/-- Settles O29: a write to a busy CMD sets OVR and nothing else of the block, and OVR is sticky. -/
theorem ovrSetAndCleared : Obligations.OvrSetAndCleared := by
  refine fun s t h => ⟨fun w hw hb => ?_, (step_ovr h).rises, (step_ovr h).falls⟩
  obtain ⟨ts, p, l, hc⟩ := step_of_cmdWrite h hw
  cases (writeCmd_of_busy (s := s.hostMoved ts p l) hb w).symm.trans hc
  exact ⟨rfl, rfl, rfl, rfl, rfl, rfl, rfl, rfl, rfl⟩

/-- The sequencer drops the head frame in `P_REL`, with its `CS(0)` (R94, R97). -/
theorem seqStep_of_release {s : State} {f : Frame} {rest : List Frame} (hp : s.pending = f :: rest)
    (hphase : s.phase = .pRel) :
    seqStep s = { s.emit (.cs false) with cs := false, pending := rest, phase := .pCs } := by
  rw [seqStep_cons hp, seqStepOn, hphase]

/-- In no other phase does the sequencer change `pending` (R94). -/
theorem seqStep_pending_of_ne_release {s : State} (hphase : s.phase ≠ .pRel) : (seqStep s).pending = s.pending := by
  cases hp : s.pending with
  | nil => rw [seqStep_of_idle hp, hp]
  | cons f rest =>
    rw [seqStep_cons hp]
    cases h : s.phase with
    | pCs | pDc | pXfer | pWait => simp [seqStepOn, h, hp]
    | pRel => exact absurd h hphase

/-- A sequencer's turn that ends the operation is the release of the last frame. -/
theorem seqStep_ends {s : State} (hb : s.pending ≠ []) (he : (seqStep s).pending = []) :
    s.phase = .pRel ∧ s.pending.length = 1 ∧ (seqStep s).history = s.history ++ [.cs false] ∧
      (seqStep s).cs = false := by
  by_cases hphase : s.phase = .pRel
  · obtain ⟨f, rest, hp⟩ := List.exists_cons_of_ne_nil hb
    rw [seqStep_of_release hp hphase] at he ⊢
    obtain rfl : rest = [] := he
    exact ⟨hphase, by rw [hp]; rfl, rfl, rfl⟩
  · exact absurd (seqStep_pending_of_ne_release hphase ▸ he) hb

/-- BUSY rises only by an accept of an operation with a frame. -/
theorem step_busy_rises {s t : State} (h : step s = .next t) (hs : s.pending = []) (ht : t.pending ≠ []) :
    ∃ w i, s.nextWrite = some (.cmd, w) ∧ decode w = some i ∧ opFrames s.cfg i s.snapshot ≠ [] := by
  cases step_effect h with
  | stays => exact absurd hs ht
  | host ts hn _ e =>
    cases e with
    | quiet | operand | status | overrun | illegal => exact absurd hs ht
    | accepted p l w i hw _ hd => exact ⟨w, i, (nextWrite_of_host hn).trans hw, hd, ht⟩
  | sequencer ts => rw [seqStep_of_idle (by exact hs)] at ht; exact absurd hs ht
  | transport r ts => rw [transportStep_pending] at ht; exact absurd hs ht
  | reset d ts => exact absurd rfl ht

/-- BUSY falls only by the sequencer's release of the last frame, or by a reset. -/
theorem step_busy_falls {s t : State} (h : step s = .next t) (hs : s.pending ≠ []) (ht : t.pending = []) :
    ((∃ ts, s.turns = .sequencer :: ts) ∧ s.phase = .pRel ∧ s.pending.length = 1 ∧
      t.history = s.history ++ [.cs false] ∧ t.cs = false) ∨ ∃ d ts, s.turns = .reset d :: ts := by
  cases step_effect h with
  | stays => exact absurd ht hs
  | host ts hn _ e =>
    cases e with
    | quiet | operand | status | overrun | illegal => exact absurd ht hs
    | accepted _ _ _ _ _ hb => exact absurd hb hs
  | sequencer ts hn => exact .inl ⟨⟨ts, hn⟩, seqStep_ends (s := { s with turns := ts }) hs ht⟩
  | transport r ts => rw [transportStep_pending] at ht; exact absurd ht hs
  | reset d ts hn => exact .inr ⟨d, ts, hn⟩

/-- Settles O30: BUSY is `pending`, which only an accept fills and only the last release or a reset empties. -/
theorem busyRisesAndFalls : Obligations.BusyRisesAndFalls := by
  refine ⟨statusWord_busy_iff, fun _ _ => step_busy_rises, fun _ _ => step_busy_falls, ?_, ?_, ?_⟩
  · intro s w i hb hd hf
    rw [step_writeAt_cmd]
    exact ⟨_, writeCmd_of_legal (s := s.logHost .written) hb hd, (statusWord_busy_iff _).2 hf⟩
  · intro s hphase hlen
    obtain ⟨f, hp⟩ := List.length_eq_one_iff.1 hlen
    refine ⟨seqStep s, step_turnNext .sequencer s, ?_⟩
    rw [seqStep_of_release hp hphase]
    exact ⟨rfl, statusWord_idle rfl⟩
  · intro s t hb hf h
    rw [exec_of_idle hb] at h
    injection h with h
    subst h
    exact statusWord_idle (opFrames_of_rangeFail hf)

end Sys2Proof.Machine
end

section
/-! SUPPORT. The register window as a memory (20_memory.md): what repeating an access does (R53), which accesses the
block answers (R50, R51), and the bytes and bits of a transfer on the serial line (R61, R62). -/

namespace Sys2Proof.Machine

/-- What the host has got so far shows in no register. -/
@[simp] theorem readReg_logHost (r : Reg) (x : HostResult) (s : State) : (s.logHost x).readReg r = s.readReg r := by
  cases r <;> rfl

/-- A second equal write to STATUS finds its bits already cleared (R26, R53). -/
theorem writeStatus_idem (v : Word) (s : State) : (s.writeStatus v).writeStatus v = s.writeStatus v := by
  simp [State.writeStatus]

/-- A STATUS write does not look at the host's results, and leaves them. -/
theorem writeStatus_logHost (v : Word) (x : HostResult) (s : State) :
    (s.logHost x).writeStatus v = (s.writeStatus v).logHost x := rfl

/-- A host write at the offset of STATUS clears what its bits name (R26). -/
theorem step_writeAt_status (s : State) (v : Word) :
    step (s.hostNext (writeAt s.cfg 0x00 v)) = .next ((s.logHost .written).writeStatus v) :=
  step_writeAt_of_offset .status rfl v s

/-- Settles O23: a read logs the register's value, which the log does not change; a STATUS write is idempotent; and the
command port accepts every legal word when idle. -/
theorem readsHaveNoSideEffect : Obligations.ReadsHaveNoSideEffect := by
  refine ⟨fun r s => ⟨s.readReg r, step_hostNext_readAt r s, ?_⟩, fun s t v h => ?_, fun s w i hd hb => ?_⟩
  · have again := step_hostNext_readAt r (s.logHost (.readData (s.readReg r)))
    rwa [readReg_logHost] at again
  · rw [step_writeAt_status] at h
    injection h with h
    subst h
    rw [step_writeAt_status, writeStatus_logHost, writeStatus_idem]
  · rw [step_writeAt_cmd]
    exact ⟨_, writeCmd_of_legal (s := s.logHost .written) hb hd, rfl⟩

/-- The window is the 32 bytes from `BASE` (R50). -/
theorem inWindow_iff (c : Config) (addr : Nat) : inWindow c addr = true ↔ c.base ≤ addr ∧ addr < c.base + 32 := by
  simp [inWindow]

/-- An access to a register answers a next state. -/
theorem accessReg_next (r : Reg) (k : AccessKind) (s : State) : ∃ t, accessReg r k s = .next t := by
  cases k with
  | read => exact ⟨_, rfl⟩
  | write v => exact writeReg_next r v _

/-- An access in the window answers a next state, by a register or by the bus error (R51). -/
theorem hostAccess_next {a : HostAccess} {s : State} (h : inWindow s.cfg a.addr = true) :
    ∃ t, hostAccess a s = .next t := by
  rw [hostAccess, if_pos h]
  cases a.target s.cfg with
  | none => exact ⟨_, rfl⟩
  | some r => exact accessReg_next r a.kind s

/-- An access outside the window stops the machine (assumption 8). -/
theorem hostAccess_outside {a : HostAccess} {s : State} (h : ¬ inWindow s.cfg a.addr = true) :
    hostAccess a s = .fault .outsideWindow := if_neg h

/-- Settles O25, by whether the address lies in the window. -/
theorem onlyTheWindowAnswers : Obligations.OnlyTheWindowAnswers := by
  intro s a
  rw [step_hostNext_access]
  refine ⟨fun hout => hostAccess_outside ?_, fun hlo hhi => hostAccess_next ?_⟩
  · rw [inWindow_iff]; omega
  · rw [inWindow_iff]; omega

/-- A byte is eight bits on the line. -/
@[simp] theorem lineBits_length (b : Byte) : (lineBits b).length = 8 := rfl

/-- The bits of a byte go from bit 7 down to bit 0 (R62). -/
theorem lineBits_getElem? (b : Byte) {j : Nat} (h : j < 8) : (lineBits b)[j]? = some (b.getLsbD (7 - j)) := by
  interval_cases j <;> rfl

/-- A word transfer has the bits of its high byte and then those of its low byte (R61). -/
theorem Payload.lineBits_word (w : Half) :
    (Payload.word w).lineBits = Machine.lineBits (w.extractLsb' 8 8) ++ Machine.lineBits (w.extractLsb' 0 8) := rfl

/-- The bits of a word go from bit 15 down to bit 0 (R61, R62). -/
theorem Payload.lineBits_word_getElem? (w : Half) {j : Nat} (h : j < 16) :
    (Payload.word w).lineBits[j]? = some (w.getLsbD (15 - j)) := by
  rw [lineBits_word]
  by_cases hj : j < 8
  · rw [List.getElem?_append_left hj, lineBits_getElem? _ hj, BitVec.getLsbD_extractLsb']
    have hbit : 8 + (7 - j) = 15 - j := by omega
    simp [hbit, show 7 - j < 8 by omega]
  · have hlow : j - 8 < 8 := by omega
    rw [List.getElem?_append_right (by simpa using hj), lineBits_length, lineBits_getElem? _ hlow,
      BitVec.getLsbD_extractLsb']
    have hbit : 7 - (j - 8) = 15 - j := by omega
    simp [hbit, show 15 - j < 8 by omega]

/-- A word request puts its two bytes on the line, high byte first (R61). -/
theorem serialLine_word (w : Half) (d : Dc) (es : List Event) : serialLine d (.xw w :: es) =
    (d, w.extractLsb' 8 8) :: (d, w.extractLsb' 0 8) :: serialLine d es := rfl

/-- The frame of a word puts its two bytes on the line as data, high byte first (R61, R112). -/
theorem serialLine_frameD16 (w : Half) (d : Dc) :
    serialLine d (frameD16 w).events = [(.data, w.extractLsb' 8 8), (.data, w.extractLsb' 0 8)] := rfl

/-- The frames of two bytes put the same bytes on the line as data, in order (R61, R111). -/
theorem serialLine_frameD8_pair (a b : Byte) (d : Dc) :
    serialLine d ((frameD8 a).events ++ (frameD8 b).events) = [(.data, a), (.data, b)] := rfl

/-- Settles O47: the events of the frame, the bytes of a word, the bits of a byte and of a word, and the word made of
two bytes taken apart again. -/
theorem serialLineIsMsbFirst : Obligations.SerialLineIsMsbFirst := by
  refine ⟨fun _ => rfl, serialLine_word, fun b j hj => lineBits_getElem? b hj,
    fun w j hj => Payload.lineBits_word_getElem? w hj, fun a b d => ?_⟩
  have hhigh : (a ++ b).extractLsb' 8 8 = a := BitVec.extractLsb'_append_eq_left
  have hlow : (a ++ b).extractLsb' 0 8 = b := BitVec.extractLsb'_append_eq_right
  rw [serialLine_frameD16, serialLine_frameD8_pair, hhigh, hlow]

end Sys2Proof.Machine
end

section
/-! SUPPORT. The encoding by fields (R70 to R72, R78): a command's word is its operation code, RSV = 0 and its
immediate, and a word decodes to a command exactly if it is that command's word. -/

namespace Sys2Proof

/-- `OP` of a command's word (R73). -/
def Instr.op : Instr → Byte
  | .sendCmd _ => 0x01#8
  | .sendData8 _ => 0x02#8
  | .sendData16 _ => 0x03#8
  | .setWindow => 0x04#8
  | .fill _ => 0x05#8

/-- `IMM` of a command's word (R71, R78). -/
def Instr.imm : Instr → Half
  | .sendCmd b => b.setWidth 16
  | .sendData8 b => b.setWidth 16
  | .sendData16 w => w
  | .setWindow => 0x0000#16
  | .fill n => n

@[simp] theorem opField_append (o r : Byte) (h : Half) : opField (o ++ r ++ h) = o :=
  (BitVec.extractLsb'_append_eq_of_le (by decide)).trans BitVec.extractLsb'_append_eq_left

@[simp] theorem rsvField_append (o r : Byte) (h : Half) : rsvField (o ++ r ++ h) = r :=
  (BitVec.extractLsb'_append_eq_of_le (by decide)).trans BitVec.extractLsb'_append_eq_right

@[simp] theorem immField_append (o r : Byte) (h : Half) : immField (o ++ r ++ h) = h :=
  BitVec.extractLsb'_append_eq_right

/-- A word is `o`, `r` and `h` put together exactly if these are its fields OP, RSV and IMM (R70). -/
theorem eq_append_iff (w : Word) (o r : Byte) (h : Half) :
    w = o ++ r ++ h ↔ opField w = o ∧ rsvField w = r ∧ immField w = h := by
  constructor
  · rintro rfl
    exact ⟨opField_append o r h, rsvField_append o r h, immField_append o r h⟩
  · rintro ⟨rfl, rfl, rfl⟩
    exact word_eq_op_rsv_imm w

/-- A byte operand extended to an immediate and then to a word is the byte extended to a word. -/
theorem setWidth_byte (b : Byte) : (b.setWidth 16).setWidth 32 = b.setWidth 32 :=
  BitVec.setWidth_setWidth (by decide)

/-- A command's word is its operation code, RSV = 0 and its immediate (R78). -/
theorem encode_eq_fields (i : Instr) : encode i = i.op ++ 0x00#8 ++ i.imm := by
  cases i with
  | sendCmd b =>
    rw [encode, ← setWidth_byte]
    exact or_eq_append 0x01#8 (b.setWidth 16)
  | sendData8 b =>
    rw [encode, ← setWidth_byte]
    exact or_eq_append 0x02#8 (b.setWidth 16)
  | sendData16 w => exact or_eq_append 0x03#8 w
  | setWindow => rfl
  | fill n => exact or_eq_append 0x05#8 n

/-- A word is a command's exactly if its three fields are. -/
theorem encode_eq_iff (i : Instr) (w : Word) :
    encode i = w ↔ opField w = i.op ∧ rsvField w = 0x00#8 ∧ immField w = i.imm := by
  rw [encode_eq_fields, eq_comm, eq_append_iff]

/-- An immediate is an extended byte exactly if its high byte is 0 (R71). -/
theorem eq_setWidth_iff (h : Half) (b : Byte) : h = b.setWidth 16 ↔ immHigh h = 0x00#8 ∧ immLow h = b := by
  constructor
  · rintro rfl
    revert b
    decide
  · rintro ⟨h0, rfl⟩
    exact (setWidth_immLow h h0).symm

/-- Decoding takes back what encoding makes, row by row of the opcode map. -/
theorem decode_encode (i : Instr) : decode (encode i) = some i := by
  rw [encode_eq_fields, decode, decodeOrWhy, opField_append, rsvField_append, immField_append]
  cases i with
  | sendCmd b | sendData8 b =>
    obtain ⟨hhigh, hlow⟩ := (eq_setWidth_iff _ b).1 rfl
    simp [Instr.op, Instr.imm, hhigh, hlow, Except.toOption]
  | sendData16 | setWindow | fill => rfl

/-- A word that the checks of R72 let through has the fields of the command it decodes to. -/
theorem fields_of_decode {w : Word} {i : Instr} (h : decode w = some i) :
    opField w = i.op ∧ rsvField w = 0x00#8 ∧ immField w = i.imm := by
  simp only [decode, decodeOrWhy] at h
  split_ifs at h with hrsv h1 hhigh h2 hhigh h3 h4 hzero h5 <;> cases h
  · exact ⟨h1, not_not.1 hrsv, (eq_setWidth_iff _ _).2 ⟨hhigh, rfl⟩⟩
  · exact ⟨h2, not_not.1 hrsv, (eq_setWidth_iff _ _).2 ⟨hhigh, rfl⟩⟩
  · exact ⟨h3, not_not.1 hrsv, rfl⟩
  · exact ⟨h4, not_not.1 hrsv, hzero⟩
  · exact ⟨h5, not_not.1 hrsv, rfl⟩

/-- A word decodes to a command exactly if it is that command's word (R72, R78). -/
theorem decode_eq_some_iff (w : Word) (i : Instr) : decode w = some i ↔ encode i = w :=
  ⟨fun h => (encode_eq_iff i w).2 (fields_of_decode h), fun h => h ▸ decode_encode i⟩

/-- Settles O1: a word decodes to a command exactly if it is that command's word. -/
theorem decodeEncodeAgree : Obligations.DecodeEncodeAgree :=
  ⟨decode_encode, fun w i => (decode_eq_some_iff w i).1⟩

end Sys2Proof
end

section
/-! SUPPORT. Which words are legal: a word decodes exactly as the row of the opcode map that it matches (R73), the
legal words are as many as the commands, and the others are those of R74's list. -/

namespace Sys2Proof

/-- The low `k` bits of a word as a mask. -/
theorem setWidth_low (k : Nat) (w : Word) :
    (w.extractLsb' 0 k).setWidth 32 = w &&& ~~~(BitVec.allOnes 32 <<< k) := by
  apply BitVec.eq_of_getLsbD_eq
  intro j hj
  simp only [BitVec.getLsbD_setWidth, BitVec.getLsbD_extractLsb', BitVec.getLsbD_and, BitVec.getLsbD_not,
    BitVec.getLsbD_shiftLeft, BitVec.getLsbD_allOnes]
  by_cases hk : j < k
  · simp [hj, hk]
  · simp [hj, hk, show j - k < 32 by omega]

/-- The command that a row builds from a word has the row's value under the row's mask, and the word's own bits
elsewhere (R73, R78). -/
theorem encode_build {r : OpcodeRow} (hr : r ∈ opcodeMap) (w : Word) :
    encode (r.build w) = r.value ||| (w &&& ~~~r.mask) := by
  simp only [opcodeMap, List.mem_cons, List.not_mem_nil, or_false] at hr
  obtain rfl | rfl | rfl | rfl | rfl := hr
  · exact congrArg (0x01000000#32 ||| ·) (setWidth_low 8 w)
  · exact congrArg (0x02000000#32 ||| ·) (setWidth_low 8 w)
  · exact congrArg (0x03000000#32 ||| ·) (setWidth_low 16 w)
  · simp [encode]
  · exact congrArg (0x05000000#32 ||| ·) (setWidth_low 16 w)

/-- A row's value has no bit outside its mask. -/
theorem value_and_mask : ∀ r ∈ opcodeMap, r.value &&& r.mask = r.value := by
  decide

/-- A word matches a row of the opcode map exactly if it decodes to the command that the row builds (R73). -/
theorem matches_iff_decode {r : OpcodeRow} (hr : r ∈ opcodeMap) (w : Word) :
    w &&& r.mask = r.value ↔ decode w = some (r.build w) := by
  rw [decode_eq_some_iff, encode_build hr]
  constructor
  · intro h
    rw [← h, ← BitVec.and_or_distrib_left, BitVec.or_not_self, BitVec.and_allOnes]
  · intro h
    calc w &&& r.mask = (r.value ||| (w &&& ~~~r.mask)) &&& r.mask := by rw [h]
      _ = r.value := by
        rw [BitVec.and_or_distrib_right, value_and_mask r hr, BitVec.and_assoc]
        simp

/-- A word whose immediate is an extended byte has that byte as its low byte (R71). -/
theorem extractLsb'_low8 {w : Word} {b : Byte} (h : immField w = b.setWidth 16) : w.extractLsb' 0 8 = b :=
  calc w.extractLsb' 0 8 = immLow (immField w) := (BitVec.extractLsb'_extractLsb'_of_le (by decide)).symm
    _ = b := ((eq_setWidth_iff _ b).1 h).2

/-- Exactly one row builds a command from the command's own word. -/
theorem countP_build_encode (i : Instr) : opcodeMap.countP (fun r => decide (r.build (encode i) = i)) = 1 := by
  obtain ⟨-, -, himm⟩ := (encode_eq_iff i _).1 rfl
  cases i with
  | sendCmd b | sendData8 b => simp [opcodeMap, extractLsb'_low8 himm]
  | sendData16 w =>
    have hw : (encode (.sendData16 w)).extractLsb' 0 16 = w := himm
    simp [opcodeMap, hw]
  | setWindow => simp [opcodeMap]
  | fill n =>
    have hn : (encode (.fill n)).extractLsb' 0 16 = n := himm
    simp [opcodeMap, hn]

/-- A legal word matches exactly one row of the opcode map (R73). -/
theorem countP_matches_of_legal {w : Word} (h : (decode w).isSome = true) :
    opcodeMap.countP (fun r => w &&& r.mask == r.value) = 1 := by
  obtain ⟨i, hi⟩ := Option.isSome_iff_exists.1 h
  obtain rfl := (decode_eq_some_iff w i).1 hi
  rw [← countP_build_encode i]
  refine List.countP_congr fun r hr => ?_
  rw [beq_iff_eq, matches_iff_decode hr, hi, decide_eq_true_iff, Option.some_inj, eq_comm]

/-- The commands and the legal words correspond one to one (R72, R78). -/
def legalWordEquiv : Instr ≃ {w : Word // (decode w).isSome = true} where
  toFun i := ⟨encode i, by rw [decode_encode]; rfl⟩
  invFun w := (decode w.1).get w.2
  left_inv i := by simp [decode_encode]
  right_inv w := Subtype.ext ((decode_eq_some_iff _ _).1 (Option.some_get w.2).symm)

/-- The commands by their operand: two with a byte, two with a half and one with none. -/
def instrEquiv : Instr ≃ (Byte ⊕ Byte) ⊕ (Half ⊕ Half) ⊕ Unit where
  toFun
    | .sendCmd b => .inl (.inl b)
    | .sendData8 b => .inl (.inr b)
    | .sendData16 w => .inr (.inl (.inl w))
    | .fill n => .inr (.inl (.inr n))
    | .setWindow => .inr (.inr ())
  invFun
    | .inl (.inl b) => .sendCmd b
    | .inl (.inr b) => .sendData8 b
    | .inr (.inl (.inl w)) => .sendData16 w
    | .inr (.inl (.inr n)) => .fill n
    | .inr (.inr ()) => .setWindow
  left_inv i := by cases i <;> rfl
  right_inv x := by rcases x with (b | b) | (w | n) | u <;> rfl

/-- There are `2 ^ n` words of `n` bits. -/
theorem card_bitVec (n : Nat) : Nat.card (BitVec n) = 2 ^ n :=
  (Nat.card_congr BitVec.equivFin.toEquiv).trans (Nat.card_fin _)

/-- The number of commands, and so of legal words: twice 256, twice 65536 and one. -/
theorem card_legalWords : Nat.card {w : Word // (decode w).isSome = true} = 131585 := by
  rw [← Nat.card_congr legalWordEquiv, Nat.card_congr instrEquiv]
  simp only [Nat.card_sum, card_bitVec, Nat.card_unique]
  norm_num

/-- Settles O2: a word matches a row exactly if it decodes to the row's command, and the legal words are the words of
the commands. -/
theorem opcodeMapIsExact : Obligations.OpcodeMapIsExact := by
  refine ⟨fun w => ⟨?_, ?_, ?_, ?_, ?_⟩, fun w => countP_matches_of_legal, card_legalWords⟩
  · exact (matches_iff_decode (r := opcodeMap[0]) (by simp [opcodeMap]) w).1
  · exact (matches_iff_decode (r := opcodeMap[1]) (by simp [opcodeMap]) w).1
  · exact (matches_iff_decode (r := opcodeMap[2]) (by simp [opcodeMap]) w).1
  · exact (matches_iff_decode (r := opcodeMap[3]) (by simp [opcodeMap]) w).1
  · exact (matches_iff_decode (r := opcodeMap[4]) (by simp [opcodeMap]) w).1

/-- An operation code outside 0x01 to 0x05 (R74 item 1). -/
theorem op_illegal_iff (o : Byte) : (o = 0x00#8 ∨ 0x06 ≤ o.toNat) ↔
    o ≠ 0x01#8 ∧ o ≠ 0x02#8 ∧ o ≠ 0x03#8 ∧ o ≠ 0x04#8 ∧ o ≠ 0x05#8 := by
  revert o
  decide

/-- The words that decode to nothing, by R74's four items. -/
theorem decode_eq_none_iff (w : Word) : decode w = none ↔
    (opField w = 0x00#8 ∨ 0x06 ≤ (opField w).toNat) ∨ rsvField w ≠ 0x00#8 ∨
    ((opField w = 0x01#8 ∨ opField w = 0x02#8) ∧ immHigh (immField w) ≠ 0x00#8) ∨
    (opField w = 0x04#8 ∧ immField w ≠ 0x0000#16) := by
  rw [op_illegal_iff]
  simp only [decode, decodeOrWhy]
  -- on each path through the checks of R72 the conditions passed decide every item of the list
  split_ifs with hrsv h1 hhigh h2 hhigh h3 h4 hzero h5 <;> simp [Except.toOption, *]

/-- Settles O3: R74's list, and the command port's two discards. -/
theorem illegalWordsAreDiscarded : Obligations.IllegalWordsAreDiscarded := by
  refine ⟨fun w => ?_, fun w s hd hb => ?_, fun w s hd hb => ?_, by decide⟩
  · have hhigh : w.extractLsb' 8 8 = immHigh (immField w) :=
      (BitVec.extractLsb'_extractLsb'_of_le (by decide)).symm
    rw [hhigh]
    exact decode_eq_none_iff w
  · rw [Machine.step_writeAt_cmd]
    exact Machine.writeCmd_of_illegal (s := s.logHost .written) hb hd
  · rw [Machine.step_writeAt_cmd]
    exact Machine.writeCmd_of_busy (s := s.logHost .written) hb w

/-- Settles O4, by evaluating the decoder. -/
theorem sampleWordsDecode : Obligations.SampleWordsDecode := by
  unfold Obligations.SampleWordsDecode
  decide

end Sys2Proof
end

section
/-! SUPPORT. The assembler (R77, R78): it refuses exactly what does not fit, and what it answers encodes to the word
as written. -/

namespace Sys2Proof

/-- A command's word as a number: its operation code in bits 31 to 24, its immediate in bits 15 to 0 (R70). -/
theorem encode_toNat (i : Instr) : (encode i).toNat = i.op.toNat * 2 ^ 24 + i.imm.toNat := by
  have himm := i.imm.isLt
  rw [encode_eq_fields, BitVec.toNat_append, BitVec.toNat_append, ← Nat.shiftLeft_add_eq_or_of_lt himm,
    BitVec.toNat_ofNat, Nat.or_zero, ← Nat.shiftLeft_add, Nat.shiftLeft_eq]

/-- The word of a command as it is written in assembler: the operation code's word plus the operand (R78). -/
def AsmCmd.wordNat : AsmCmd → Nat
  | .sendCmd b => 0x01000000 + b
  | .sendData8 b => 0x02000000 + b
  | .sendData16 w => 0x03000000 + w
  | .setWindow => 0x04000000
  | .fill n => 0x05000000 + n

/-- The command that an assembler without R78's check would make, with the operand cut off at its width. -/
def AsmCmd.truncated : AsmCmd → Instr
  | .sendCmd b => .sendCmd (BitVec.ofNat 8 b)
  | .sendData8 b => .sendData8 (BitVec.ofNat 8 b)
  | .sendData16 w => .sendData16 (BitVec.ofNat 16 w)
  | .setWindow => .setWindow
  | .fill n => .fill (BitVec.ofNat 16 n)

/-- The assembler is R78's check in front of the cut. -/
theorem assemble_eq (c : AsmCmd) : assemble c = if c.wf then some c.truncated else none := by
  cases c <;> rfl

/-- The assembler refuses exactly what is not well formed (R78). -/
theorem assemble_eq_none_iff (c : AsmCmd) : assemble c = none ↔ c.wf = false := by
  rw [assemble_eq]
  cases c.wf <;> simp

/-- Of an operand that fits, the cut takes nothing. -/
theorem encode_truncated_toNat {c : AsmCmd} (h : c.wf = true) : (encode c.truncated).toNat = c.wordNat := by
  rw [encode_toNat]
  cases c with
  | sendCmd b | sendData8 b | sendData16 b | fill b =>
    have hfit := of_decide_eq_true h
    simp [AsmCmd.truncated, Instr.op, Instr.imm, AsmCmd.wordNat]
    omega
  | setWindow => rfl

/-- What the assembler answers encodes to the word as written (R78). -/
theorem encode_assemble_toNat {c : AsmCmd} {i : Instr} (h : assemble c = some i) :
    (encode i).toNat = c.wordNat := by
  rw [assemble_eq] at h
  split at h <;> cases h
  exact encode_truncated_toNat ‹_›

/-- Settles O5: an operand is refused exactly if it does not fit, and one that fits is not truncated. -/
theorem assemblerRefusesWhatDoesNotFit : Obligations.AssemblerRefusesWhatDoesNotFit := by
  refine ⟨fun c => ?_, fun _ _ => encode_assemble_toNat, fun _ _ => encode_assemble_toNat,
    fun _ _ => encode_assemble_toNat, fun _ => encode_assemble_toNat, fun _ _ => encode_assemble_toNat⟩
  rw [assemble_eq_none_iff]
  cases c <;> simp [AsmCmd.wf]

end Sys2Proof
end

section
/-! SUPPORT. The drawing macros (R79): a window that passes its range check has at most `W*H` pixels, so that a count
can be unfit for a FILL word only on a larger surface, or where the window fails. -/

namespace Sys2Proof.Machine

/-- A window that passes the range check has at most `W*H` pixels (R120). -/
theorem area_le_of_windowPasses {c : Config} {x0 x1 y0 y1 color : Half}
    (h : windowRangeFail c ⟨x0, x1, y0, y1, color⟩ = false) :
    span x0 x1 * span y0 y1 ≤ c.surfaceW * c.surfaceH := by
  have hpass := mt (windowRangeFail_iff c _).2 (Bool.eq_false_iff.1 h)
  simp only [not_or, Nat.not_lt, Nat.not_le] at hpass
  obtain ⟨hx, hxW, hy, hyH⟩ := hpass
  have hcols : span x0 x1 ≤ c.surfaceW := by unfold span; omega
  have hrows : span y0 y1 ≤ c.surfaceH := by unfold span; omega
  exact Nat.mul_le_mul hcols hrows

/-- On a surface of at most 0xFFFF pixels, SETWIN and the FILLC of its area always assemble. -/
theorem windowAndFill_area_isSome {c : Config} (hs : c.surfaceW * c.surfaceH ≤ 0xFFFF) (x0 x1 y0 y1 color : Half) :
    (windowAndFill c x0 x1 y0 y1 color (span x0 x1 * span y0 y1)).isSome = true := by
  rcases Nat.lt_or_ge (span x0 x1 * span y0 y1) 65536 with hfits | hlarge
  · rw [windowAndFill_of_fits hfits]
    rfl
  · cases hf : windowRangeFail c ⟨x0, x1, y0, y1, color⟩ with
    | true => rw [windowAndFill_of_large hlarge, if_pos hf]; rfl
    | false => exact absurd (hlarge.trans (area_le_of_windowPasses hf)) (by omega)

/-- A bound that does not move is one pixel wide. -/
theorem span_self (a : Half) : span a a = 1 := by simp [span]

/-- RECT of a count that fits 16 bits is SETWIN of the ordered corners and FILLC of the count. -/
theorem rect_of_fits (c : Config) (xs xe ys ye color n : Half)
    (hn : n.toNat = span (lower xs xe) (upper xs xe) * span (lower ys ye) (upper ys ye)) :
    rect c xs xe ys ye color = some (setwin c (lower xs xe) (upper xs xe) (lower ys ye) (upper ys ye) ++
      [writeAt c 0x14 (color.setWidth 32), .wait, writeAt c 0x18 (encode (.fill n))]) := by
  rw [rect, ← hn, windowAndFill_of_fits n.isLt, BitVec.ofNat_toNat, BitVec.setWidth_eq]
  rfl

/-- Settles O50: the area of a window that passes fits the surface, so RECT's count fits its FILL word. -/
theorem rectangleInsideSurfaceAssembles : Obligations.RectangleInsideSurfaceAssembles := by
  intro c xs xe ys ye color h
  have harea := area_le_of_windowPasses h
  refine ⟨harea, fun hs => ?_⟩
  have hfits := Nat.lt_succ_of_le (harea.trans hs)
  exact ⟨BitVec.ofNatLT _ hfits, rfl, rect_of_fits c xs xe ys ye color _ rfl⟩

/-- Settles O54, by whether the count fits 16 bits; a line is a window whose other side is one pixel. -/
theorem rectangleAssembles : Obligations.RectangleAssembles := by
  refine ⟨fun c xs xe ys ye x y color hs => ⟨?_, ?_, ?_⟩, fun c xs xe ys ye color => ⟨?_, fun hlarge => ⟨?_, ?_⟩⟩⟩
  · exact windowAndFill_area_isSome hs _ _ _ _ color
  · have hline := windowAndFill_area_isSome hs (lower xs xe) (upper xs xe) y y color
    rwa [span_self y, Nat.mul_one] at hline
  · have vline := windowAndFill_area_isSome hs x x (lower ys ye) (upper ys ye) color
    rwa [span_self x, Nat.one_mul] at vline
  · exact rect_of_fits c xs xe ys ye color
  · intro hf
    exact (windowAndFill_of_large hlarge _ _ _ _ _ _).trans (if_pos hf)
  · intro hf
    exact (windowAndFill_of_large hlarge _ _ _ _ _ _).trans (if_neg (Bool.eq_false_iff.1 hf))

end Sys2Proof.Machine
end

section
/-! SUPPORT. The host's polls of STATUS (R58, R79). -/

namespace Sys2Proof.Machine

/-- `WAIT` stays at the head of the program while the block is busy (R79). -/
theorem step_wait_of_busy {s : State} (h : s.pending ≠ []) :
    step (s.hostNext .wait) = .next { s.pollStatus with program := .wait :: s.program } :=
  (step_hostNext .wait s).trans (if_pos ((statusWord_busy_iff _).2 h))

/-- `WAIT` reads STATUS once and goes on when the block is idle (R79). -/
theorem step_wait_of_idle {s : State} (h : s.pending = []) : step (s.hostNext .wait) = .next s.pollStatus :=
  (step_hostNext .wait s).trans (if_neg (ne_true_of_eq_false (statusWord_idle h)))

/-- SETWIN's check with RERR = 1 ends the host's program (R79, assumption 16). -/
theorem step_checkRange_of_failed {s : State} (h : s.rerr = true) :
    step (s.hostNext .checkRange) = .next { s.pollStatus.logHost (.stopped .rangeError) with program := [] } :=
  (step_hostNext .checkRange s).trans (if_pos ((statusWord_bit1 _).trans h))

/-- SETWIN's check with RERR = 0 reads STATUS once and goes on (R79). -/
theorem step_checkRange_of_passed {s : State} (h : s.rerr = false) :
    step (s.hostNext .checkRange) = .next s.pollStatus :=
  (step_hostNext .checkRange s).trans (if_neg (ne_true_of_eq_false ((statusWord_bit1 _).trans h)))

/-- Settles O49, by the bit of STATUS that each poll looks at. -/
theorem hostPollStatements : Obligations.HostPollStatements :=
  fun _ => ⟨step_wait_of_busy, step_wait_of_idle, step_checkRange_of_failed, step_checkRange_of_passed⟩

end Sys2Proof.Machine
end

section
/-! SUPPORT. SETWIN statement by statement (R79, R121): what a run through the host's next statements does, the four
writes of the window's bounds, and the stop at a window out of range. -/

namespace Sys2Proof.Machine

/-- `s` with the host to make the statements of `p` in its next turns, before all else. -/
def State.hostRuns (p : List HostStmt) (s : State) : State :=
  { s with program := p ++ s.program, turns := List.replicate p.length .host ++ s.turns }

/-- A state with statements and as many host turns in front is of this form. -/
theorem eq_hostRuns {s : State} {p rest : List HostStmt} {ts : List Turn} (hp : s.program = p ++ rest)
    (ht : s.turns = List.replicate p.length .host ++ ts) :
    s = State.hostRuns p { s with program := rest, turns := ts } := by
  rw [State.hostRuns, ← hp, ← ht]

/-- A run through the first of these statements, from what that statement does in one step. -/
theorem run_hostRuns_cons {st : HostStmt} {p : List HostStmt} {s t : State}
    (h : step ((s.hostRuns p).hostNext st) = .next t) (k : Nat) :
    Sys2Proof.core.run (k + 1) (s.hostRuns (st :: p)) = Sys2Proof.core.run k t :=
  run_succ_of_next h k

/-- An operand register with a value in it (R27); the other registers hold no operand. -/
def State.setOperand (r : Reg) (v : Half) (s : State) : State :=
  match r with
  | .x0 => { s with x0 := v }
  | .x1 => { s with x1 := v }
  | .y0 => { s with y0 := v }
  | .y1 => { s with y1 := v }
  | .color => { s with color := v }
  | .status | .cmd | .reserved => s

/-- What an operand register stores of a zero-extended value is the value (R27). -/
@[simp] theorem operandBits_zext32 (x : Half) : operandBits (zext32 x) = x :=
  (BitVec.extractLsb'_setWidth_of_le (by decide)).trans BitVec.extractLsb'_eq_self

/-- A write of a zero-extended value to an operand register puts the value there (R27). -/
theorem writeReg_zext32 {r : Reg} (hr : r ∈ operandRegs) (v : Half) (s : State) :
    writeReg r (zext32 v) s = .next (s.setOperand r v) := by
  cases r with
  | status | cmd | reserved => simp [operandRegs] at hr
  | x0 | x1 | y0 | y1 | color => simp only [writeReg, operandBits_zext32, State.setOperand]

/-- `s` after a host write of `v` to an operand register (R27). -/
def State.operandWritten (r : Reg) (v : Half) (s : State) : State := (s.logHost .written).setOperand r v

/-- A run through a write to an operand register. -/
theorem run_hostRuns_writeAt {r : Reg} (hr : r ∈ operandRegs) {c : Config} {s : State} (hc : c = s.cfg) (v : Half)
    (p : List HostStmt) (k : Nat) :
    Sys2Proof.core.run (k + 1) (s.hostRuns (writeAt c r.offset (zext32 v) :: p)) =
      Sys2Proof.core.run k ((s.operandWritten r v).hostRuns p) := by
  subst hc
  refine run_hostRuns_cons ?_ k
  calc step ((s.hostRuns p).hostNext (writeAt s.cfg r.offset (zext32 v)))
      = writeReg r (zext32 v) ((s.hostRuns p).logHost .written) := step_hostNext_writeAt r _ (s.hostRuns p)
    _ = .next (((s.hostRuns p).logHost .written).setOperand r v) := writeReg_zext32 hr v _
    _ = .next ((s.operandWritten r v).hostRuns p) := by cases r <;> rfl

/-- `s` after the host has written a window's bounds (R79). -/
def State.windowWritten (x0 x1 y0 y1 : Half) (s : State) : State :=
  (((s.operandWritten .x0 x0).operandWritten .x1 x1).operandWritten .y0 y0).operandWritten .y1 y1

/-- The four bounds and four results are all that the host's writes change. -/
theorem windowWritten_eq (x0 x1 y0 y1 : Half) (s : State) : s.windowWritten x0 x1 y0 y1 = { s with
    x0 := x0, x1 := x1, y0 := y0, y1 := y1
    hostLog := s.hostLog ++ [.written] ++ [.written] ++ [.written] ++ [.written] } := by
  simp only [State.windowWritten, State.operandWritten, State.setOperand, State.logHost]

/-- SETWIN's first four turns write the window's bounds. -/
theorem run_setwin_bounds (k : Nat) (s : State) (x0 x1 y0 y1 : Half) :
    Sys2Proof.core.run (k + 4) (s.hostRuns (setwin s.cfg x0 x1 y0 y1)) =
      Sys2Proof.core.run k
        ((s.windowWritten x0 x1 y0 y1).hostRuns [.wait, cmdStmt s.cfg .setWindow, .checkRange]) := by
  refine (run_hostRuns_writeAt (r := .x0) (by decide) rfl x0 _ (k + 3)).trans ?_
  refine (run_hostRuns_writeAt (r := .x1) (by decide) rfl x1 _ (k + 2)).trans ?_
  refine (run_hostRuns_writeAt (r := .y0) (by decide) rfl y0 _ (k + 1)).trans ?_
  exact run_hostRuns_writeAt (r := .y1) (by decide) rfl y1 _ k

/-- What the host has got so far is no part of the snapshot (R91). -/
@[simp] theorem snapshot_logHost (x : HostResult) (s : State) : (s.logHost x).snapshot = s.snapshot := rfl

/-- A SET_WINDOW that an idle block accepts and whose window is out of range sets RERR and starts nothing (R121). -/
theorem step_setWindow_of_rangeFail {s : State} (hb : s.pending = [])
    (hf : rangeFail s.cfg .setWindow s.snapshot = true) : step (s.hostNext (cmdStmt s.cfg .setWindow)) =
      .next { s.logHost .written with rerr := true, phase := .pCs } := by
  have hframes : opFrames s.cfg .setWindow s.snapshot = s.pending := (opFrames_of_rangeFail hf).trans hb.symm
  rw [cmdStmt, step_hostNext_writeAt, writeReg,
    writeCmd_of_legal (s := s.logHost .written) hb (decode_encode .setWindow),
    State.logHost_cfg, snapshot_logHost, hf, hframes]
  rfl

/-- `s` after the host has found it idle and written a SET_WINDOW that failed its range check (R121). -/
def State.windowFailed (s : State) : State :=
  { s.pollStatus.logHost .written with rerr := true, phase := .pCs }

/-- SETWIN's last three turns on an idle block, with a window out of range: the check reads RERR = 1 back, which ends
the host's program (R79, R121). -/
theorem run_setwin_check {s : State} (hb : s.pending = []) (hf : rangeFail s.cfg .setWindow s.snapshot = true) :
    Sys2Proof.core.run 3 (s.hostRuns [.wait, cmdStmt s.cfg .setWindow, .checkRange]) =
      .next { s.windowFailed.pollStatus.logHost (.stopped .rangeError) with program := [] } := by
  refine (run_hostRuns_cons (step_wait_of_idle hb) 2).trans ?_
  refine (run_hostRuns_cons (s := s.pollStatus) (step_setWindow_of_rangeFail hb hf) 1).trans ?_
  exact run_hostRuns_cons (s := s.windowFailed) (step_checkRange_of_failed rfl) 0

/-- Settles O53: the host's first four turns write the window, and the last three stop at its range check. -/
theorem failedWindowStopsBeforeTheFill : Obligations.FailedWindowStopsBeforeTheFill := by
  intro s x0 x1 y0 y1 rest ts hb hp ht hw
  have hf := (rangeFail_iff s.cfg .setWindow ⟨x0, x1, y0, y1, s.color⟩).2 ⟨rfl, hw⟩
  rw [eq_hostRuns hp ht]
  have hbounds := run_setwin_bounds 3 { s with program := rest, turns := ts } x0 x1 y0 y1
  rw [windowWritten_eq] at hbounds
  exact ⟨_, hbounds.trans (run_setwin_check hb hf), rfl, List.getLast?_concat⟩

end Sys2Proof.Machine
end

section
/-! SUPPORT. The accept of a command (R90 to R92): the command port and `exec` agree, and the operation that starts
depends on the command, the parameters and the snapshot alone. -/

namespace Sys2Proof.Machine

/-- The command port runs a word that decodes as the command it decodes to, idle or busy (R90). -/
theorem writeCmd_of_decode {w : Word} {i : Instr} (hd : decode w = some i) (s : State) :
    writeCmd w s = exec i s := by
  by_cases hb : s.pending = []
  · rw [writeCmd_of_legal hb hd, exec_of_idle hb]
  · rw [writeCmd_of_busy hb, exec_of_busy hb]

/-- Settles O6: a host write to CMD is `writeCmd`, which runs the decoded command. -/
theorem stepRunsDecodedCommand : Obligations.StepRunsDecodedCommand := by
  intro s w i hd
  rw [step_writeAt_cmd, writeCmd_of_decode hd]

/-- The decoder reads a row of the opcode table as it reads the row's 32-bit word (R52, R76). -/
theorem decode_of_decodeTableWord {nbits w : Nat} {i : Instr} (h : decodeTableWord nbits w = some i) :
    decode (BitVec.ofNat 32 (w % 2 ^ nbits)) = some i := by
  by_cases hn : nbits ≤ 32
  · rwa [decodeTableWord, if_pos hn, decodeBytes_wordBytes] at h
  · rw [decodeTableWord, if_neg hn] at h
    cases h

/-- Settles O8: the placed word is the host's next write to CMD, and it decodes as the table's row does. -/
theorem placedWordRunsNext : Obligations.PlacedWordRunsNext :=
  fun s _ _ i h => stepRunsDecodedCommand s _ i (decode_of_decodeTableWord h)

/-- Settles O7, by the three outcomes of the command port. -/
theorem commandPortAccepts : Obligations.CommandPortAccepts := by
  intro s w
  rw [step_writeAt_cmd]
  refine ⟨fun hb => ?_, fun hb hd => ?_, fun i hb hd => ?_⟩
  · exact writeCmd_of_busy (s := s.logHost .written) hb w
  · exact writeCmd_of_illegal (s := s.logHost .written) hb hd
  · exact ⟨_, writeCmd_of_legal (s := s.logHost .written) hb hd, rfl, (statusWord_busy_iff _).2⟩

/-- What a command leaves unchanged: everything but OVR, RERR, `pending` and `phase` (R90, R162). -/
theorem exec_frame {i : Instr} {s t : State} (h : exec i s = .next t) :
    t = { s with ovr := t.ovr, rerr := t.rerr, pending := t.pending, phase := t.phase } := by
  by_cases hb : s.pending = []
  · cases (exec_of_idle hb i).symm.trans h
    rfl
  · cases (exec_of_busy hb i).symm.trans h
    rfl

/-- Settles O12: an accept writes RERR, `pending` and `phase`, an overrun writes OVR. -/
theorem commandFrame : Obligations.CommandFrame := by
  intro i s t h
  refine ⟨?_, fun hb => ?_, fun hb => ?_⟩
  · rw [exec_frame h]
    exact ⟨rfl, rfl, rfl, rfl, rfl, rfl, rfl, rfl, rfl, rfl, rfl, rfl, rfl, rfl, rfl⟩
  · cases (exec_of_idle hb i).symm.trans h
    rfl
  · cases (exec_of_busy hb i).symm.trans h
    exact ⟨rfl, rfl, rfl, rfl⟩

/-- Settles O17: only bytes are sent as commands, and the two levels of the line are those of `Dc`. -/
theorem dcLineTellsCommandFromData : Obligations.DcLineTellsCommandFromData := by
  refine ⟨fun c i k f hf => ⟨fun hd => ⟨by rw [hd]; rfl, opFrames_cmd_byte f hf hd⟩, fun hd => by rw [hd]; rfl⟩, ?_⟩
  exact fun _ _ => ⟨fun _ => rfl, fun _ => rfl, fun _ => rfl⟩

/-- `t` has the operation of `s`: the same frames, phase and result, the same lines and request, and the same events
(R31, R32). -/
structure SameOperation (s t : State) : Prop where
  pending : t.pending = s.pending
  phase : t.phase = s.phase
  rerr : t.rerr = s.rerr
  cs : t.cs = s.cs
  dc : t.dc = s.dc
  req : t.req = s.req
  history : t.history = s.history

theorem SameOperation.refl (s : State) : SameOperation s s := ⟨rfl, rfl, rfl, rfl, rfl, rfl, rfl⟩

theorem SameOperation.trans {s t u : State} (h : SameOperation s t) (h' : SameOperation t u) : SameOperation s u :=
  ⟨h'.pending.trans h.pending, h'.phase.trans h.phase, h'.rerr.trans h.rerr, h'.cs.trans h.cs, h'.dc.trans h.dc,
    h'.req.trans h.req, h'.history.trans h.history⟩

/-- The same operation has the same events on the trace. -/
theorem SameOperation.trace {s t : State} (h : SameOperation s t) : t.trace = s.trace := trace_eq_of_history h.history

/-- The same operation has the same events still to emit. -/
theorem SameOperation.remaining {s t : State} (h : SameOperation s t) : t.remaining = s.remaining := by
  rw [State.remaining, State.remaining, h.pending, h.phase]

/-- The same operation is as far from its end. -/
theorem SameOperation.stepsLeft {s t : State} (h : SameOperation s t) : t.stepsLeft = s.stepsLeft := by
  rw [State.stepsLeft, State.stepsLeft, h.pending, h.phase]

/-- The invariant speaks of the operation alone. -/
theorem SameOperation.inv {s t : State} (h : SameOperation s t) (hi : Inv s) : Inv t :=
  hi.congr h.pending h.phase h.cs h.dc h.req h.rerr h.history

/-- A write to an operand register is no part of the operation in progress (R27, R60). -/
theorem writeReg_operand_sameOperation {r : Reg} (hr : r ∈ operandRegs) (v : Word) (s : State) :
    ∃ t, writeReg r v s = .next t ∧ SameOperation s t := by
  cases r with
  | status | cmd | reserved => simp [operandRegs] at hr
  | x0 | x1 | y0 | y1 | color => exact ⟨_, rfl, rfl, rfl, rfl, rfl, rfl, rfl, rfl⟩

/-- Settles O18: the accept computes RERR and the frames from the command, the parameters and the snapshot, and an
operand write changes neither. -/
theorem operationDependsOnSnapshotAlone : Obligations.OperationDependsOnSnapshotAlone := by
  refine ⟨fun i s s' t t' hb hb' hc hk h h' => ?_, fun s v off hoff => ?_⟩
  · rw [exec_of_idle hb', ← hc, ← hk] at h'
    cases (exec_of_idle hb i).symm.trans h
    cases h'
    exact ⟨rfl, rfl, rfl⟩
  · rw [← operandRegs_offsets] at hoff
    obtain ⟨r, hr, rfl⟩ := List.mem_map.1 hoff
    obtain ⟨t, ht, ho⟩ := writeReg_operand_sameOperation hr v (s.logHost .written)
    exact ⟨t, (step_hostNext_writeAt r v s).trans ht, ho.pending, ho.phase, ho.rerr, ho.history⟩

end Sys2Proof.Machine
end

section
/-! SUPPORT. The sequencer's turn phase by phase (R94), and what a host's turn does to the operation in progress
(R54, R103). -/

namespace Sys2Proof.Machine

/-- What a sequencer's turn can do, one constructor for each phase that has a step (R94). -/
inductive SeqEffect (s : State) : State → Prop
  | passes (h : s.phase = .pWait ∨ s.pending = []) : SeqEffect s s
  | selects (f : Frame) (rest : List Frame) (hp : s.pending = f :: rest) (hphase : s.phase = .pCs) :
      SeqEffect s { s.emit (.cs true) with cs := true, phase := .pDc }
  | drives (f : Frame) (rest : List Frame) (hp : s.pending = f :: rest) (hphase : s.phase = .pDc) :
      SeqEffect s { s.emit (.dc f.dc) with dc := f.dc, phase := .pXfer }
  | requests (f : Frame) (rest : List Frame) (hp : s.pending = f :: rest) (hphase : s.phase = .pXfer) :
      SeqEffect s { s.emit f.payload.request with req := some f.payload, phase := .pWait }
  | releases (f : Frame) (rest : List Frame) (hp : s.pending = f :: rest) (hphase : s.phase = .pRel) :
      SeqEffect s { s.emit (.cs false) with cs := false, pending := rest, phase := .pCs }

/-- The inversion of a sequencer's turn. -/
theorem seqStep_effect (s : State) : SeqEffect s (seqStep s) := by
  cases hp : s.pending with
  | nil => rw [seqStep_of_idle hp]; exact .passes (.inr hp)
  | cons f rest =>
    rw [seqStep_cons hp, seqStepOn]
    cases hphase : s.phase with
    | pCs => exact .selects f rest hp hphase
    | pDc => exact .drives f rest hp hphase
    | pXfer => exact .requests f rest hp hphase
    | pWait => exact .passes (.inl hphase)
    | pRel => exact .releases f rest hp hphase

/-- The inversion of a step on the sequencer's turn. -/
theorem seqEffect_of_step {s t : State} (h : step (s.turnNext .sequencer) = .next t) : SeqEffect s t := by
  injection h with h
  exact h ▸ seqStep_effect s

@[simp] theorem onTrace_cs (b : Bool) : (Event.cs b).onTrace = true := rfl
@[simp] theorem onTrace_dc (d : Dc) : (Event.dc d).onTrace = true := rfl
@[simp] theorem onTrace_done (p : Payload) : (Event.done p).onTrace = false := rfl

/-- Every transfer request stands on the trace (R32). -/
@[simp] theorem onTrace_request (p : Payload) : p.request.onTrace = true := by cases p <;> rfl

/-- A sequencer's turn emits at most one event, and that one onto the trace (R94). -/
theorem SeqEffect.emits {s t : State} (e : SeqEffect s t) : ∃ es : List Event, t.history = s.history ++ es ∧
    (∀ e ∈ es, e.onTrace = true) ∧ es.length ≤ 1 := by
  cases e with
  | passes => exact ⟨[], by simp⟩
  | selects => exact ⟨[.cs true], by simp⟩
  | drives f => exact ⟨[.dc f.dc], by simp⟩
  | requests f => exact ⟨[f.payload.request], by simp⟩
  | releases => exact ⟨[.cs false], by simp⟩

/-- Events of the block extend the trace as they extend the history. -/
theorem trace_append {s t : State} {es : List Event} (h : t.history = s.history ++ es)
    (hes : ∀ e ∈ es, e.onTrace = true) : t.trace = s.trace ++ es := by
  rw [State.trace, h, List.filter_append, List.filter_eq_self.2 hes, State.trace]

/-- The sequencer's turn as a step, with a head frame. -/
theorem step_sequencer_cons {s : State} {f : Frame} {rest : List Frame} (hp : s.pending = f :: rest) :
    step (s.turnNext .sequencer) = .next (seqStepOn f rest s) :=
  congrArg Host.Outcome.next (seqStep_cons hp)

/-- The sequencer's turn as a step, in `P_WAIT` or with nothing pending (assumption 3). -/
theorem step_sequencer_passes {s : State} (h : s.phase = .pWait ∨ s.pending = []) :
    step (s.turnNext .sequencer) = .next s :=
  congrArg Host.Outcome.next (h.elim seqStep_of_wait seqStep_of_idle)

/-- Settles O31, phase by phase. -/
theorem sequencerSteps : Obligations.SequencerSteps := by
  refine ⟨fun s f rest hp => ?_, fun s => step_sequencer_passes, fun s t h => ?_⟩
  · rw [step_sequencer_cons hp, seqStepOn]
    refine ⟨fun hphase => ?_, fun hphase => ?_, fun b hphase hb => ?_, fun w hphase hw => ?_, fun hphase => ?_⟩
    · rw [hphase]; rfl
    · rw [hphase]; rfl
    · rw [hphase, hb]; rfl
    · rw [hphase, hw]; rfl
    · rw [hphase]; rfl
  · obtain ⟨es, hh, hes, hlen⟩ := (seqEffect_of_step h).emits
    exact ⟨es, hh, trace_append hh hes, hlen⟩

/-- A host's turn keeps the operation, unless it accepts a command, which needs an idle block and emits nothing
(R54, R90). -/
theorem HostEffect.keeps_or_accepts {s t : State} {ts : List Turn} (e : HostEffect s ts t) :
    SameOperation s t ∨ (s.pending = [] ∧ t.phase = .pCs ∧ t.dc = s.dc ∧ t.history = s.history ∧
      ∃ w i, s.hostWrite = some (.cmd, w) ∧ decode w = some i ∧ t.pending = opFrames s.cfg i s.snapshot) := by
  cases e with
  | quiet | operand | status | overrun | illegal => exact .inl ⟨rfl, rfl, rfl, rfl, rfl, rfl, rfl⟩
  | accepted p l w i hw hb hd => exact .inr ⟨hb, rfl, rfl, rfl, w, i, hw, hd, rfl⟩

/-- A host's turn keeps the operation of a busy block (R103). -/
theorem HostEffect.sameOperation {s t : State} {ts : List Turn} (e : HostEffect s ts t) (hb : s.pending ≠ []) :
    SameOperation s t :=
  e.keeps_or_accepts.resolve_right fun h => hb h.1

/-- A host's turn is used up. -/
theorem HostEffect.turns_eq {s t : State} {ts : List Turn} (e : HostEffect s ts t) : t.turns = ts := by
  cases e with
  | quiet | operand | status | overrun | illegal | accepted => rfl

/-- A step on a host's turn is a host step. -/
theorem hostEffect_of_turn {s t : State} {ts : List Turn} (hn : s.turns = .host :: ts) (h : step s = .next t) :
    HostEffect s ts t := by
  rw [step_of_turn hn] at h
  exact hostStep_effect h

/-- RERR = 1 only when idle (R103). -/
theorem Inv.rerr_of_busy {s : State} (h : Inv s) (hb : s.pending ≠ []) : s.rerr = false :=
  Bool.eq_false_iff.2 fun hr => hb (h.rerr_idle hr)

/-- Settles O41: the reads and writes at their offsets, and a host's turn keeps the operation of a busy block. -/
theorem hostCannotDisturbOperation : Obligations.HostCannotDisturbOperation := by
  intro s hi hb
  refine ⟨⟨(statusWord_busy_iff s).2 hb, (statusWord_bit1 s).trans (hi.rerr_of_busy hb),
    step_readAt_of_offset .status rfl s⟩, fun v => ⟨step_writeAt_status s v, ?_, ?_, ?_, ?_, ?_, ?_⟩,
    fun t ts hn h => ?_⟩
  · exact step_writeAt_of_offset .x0 rfl v s
  · exact step_writeAt_of_offset .x1 rfl v s
  · exact step_writeAt_of_offset .y0 rfl v s
  · exact step_writeAt_of_offset .y1 rfl v s
  · exact step_writeAt_of_offset .color rfl v s
  · exact (step_writeAt_cmd s v).trans (writeCmd_of_busy (s := s.logHost .written) hb v)
  · have e := hostEffect_of_turn hn h
    have ho := e.sameOperation hb
    exact ⟨step_cfg h, ho.pending, ho.phase, ho.cs, ho.dc, ho.req, ho.history, ho.rerr, e.turns_eq⟩

@[simp] theorem transportStep_dc (r : Half) (s : State) : (transportStep r s).dc = s.dc := by
  rw [transportStep_frame]

/-- A sequencer's turn that changes the data/command line is that of `P_DC`, and drives the head frame's level (R99). -/
theorem SeqEffect.dc_changes {s t : State} (e : SeqEffect s t) (h : t.dc ≠ s.dc) :
    s.phase = .pDc ∧ ∃ f rest, s.pending = f :: rest ∧ t.dc = f.dc := by
  cases e with
  | passes | selects | requests | releases => exact absurd rfl h
  | drives f rest hp hphase => exact ⟨hphase, f, rest, hp, rfl⟩

/-- Settles O34, by the agent whose turn the step is. -/
theorem dcDrivenOnlyInItsPhase : Obligations.DcDrivenOnlyInItsPhase := by
  refine ⟨fun s t h hne => ?_, fun s d => ⟨resetStep d s, rfl, rfl⟩⟩
  cases step_effect h with
  | stays => exact absurd rfl hne
  | host ts hn _ e =>
    rcases e.keeps_or_accepts with ho | ⟨-, -, hdc, -⟩
    · exact absurd ho.dc hne
    · exact absurd hdc hne
  | sequencer ts hn =>
    obtain ⟨hphase, hf⟩ := (seqStep_effect { s with turns := ts }).dc_changes hne
    exact .inl ⟨hphase, ⟨ts, hn⟩, hf⟩
  | transport r ts => exact absurd (transportStep_dc r _) hne
  | reset d ts hn => exact .inr ⟨ts, hn⟩

end Sys2Proof.Machine
end

section
/-! SUPPORT. The stalled transfer and the transport's `DONE` (R96, R101). -/

namespace Sys2Proof.Machine

/-- In `P_WAIT` an operation is in progress (R31). -/
theorem Inv.busy_of_wait {s : State} (h : Inv s) (hphase : s.phase = .pWait) : s.pending ≠ [] := by
  intro hb
  cases (h.idle_phase hb).symm.trans hphase

/-- A step in `P_WAIT` that is neither the transport's nor a reset keeps the operation, and uses up its turn (R101). -/
theorem step_of_stalled {s t : State} (hi : Inv s) (hphase : s.phase = .pWait)
    (hn : ∀ u ∈ s.turns.head?, u.endsStall = false) (h : step s = .next t) :
    SameOperation s t ∧ t.turns = s.turns.tail := by
  cases step_effect h with
  | stays hn' => exact ⟨.refl s, by rw [hn']; rfl⟩
  | host ts hn' _ e => exact ⟨e.sameOperation (hi.busy_of_wait hphase), by rw [e.turns_eq, hn']; rfl⟩
  | sequencer ts hn' =>
    rw [seqStep_of_wait (by exact hphase)]
    exact ⟨⟨rfl, rfl, rfl, rfl, rfl, rfl, rfl⟩, by rw [hn']; rfl⟩
  | transport r ts hn' => cases hn _ (by rw [hn']; rfl)
  | reset d ts hn' => cases hn _ (by rw [hn']; rfl)

/-- Of the next `k + 1` turns, the first is the head and the next `k` are those of the tail. -/
theorem forall_take_succ {α : Type} {l : List α} {k : Nat} {P : α → Prop} :
    (∀ u ∈ l.take (k + 1), P u) ↔ (∀ u ∈ l.head?, P u) ∧ ∀ u ∈ l.tail.take k, P u := by
  cases l <;> simp

/-- A run in `P_WAIT` without a transport turn or a reset keeps the operation (R101). -/
theorem run_of_stalled {k : Nat} {s t : State} (hi : Inv s) (hphase : s.phase = .pWait)
    (hn : ∀ u ∈ s.turns.take k, u.endsStall = false) (h : Sys2Proof.core.run k s = .next t) : SameOperation s t := by
  induction k generalizing s with
  | zero =>
    rw [run_zero] at h
    injection h with h
    exact h ▸ .refl s
  | succ k ih =>
    obtain ⟨u, hu, hrun⟩ := run_succ_next h
    obtain ⟨hhead, htail⟩ := forall_take_succ.1 hn
    obtain ⟨ho, hturns⟩ := step_of_stalled hi hphase hhead hu
    exact ho.trans (ih (ho.inv hi) (ho.phase.trans hphase) (hturns ▸ htail) hrun)

/-- In `P_WAIT` the sequencer's turn passes, and with no turn listed nothing moves (R94, R101). -/
theorem step_of_wait {s : State} (hphase : s.phase = .pWait) (hn : ∀ u ∈ s.turns.head?, u = .sequencer) :
    step s = .next { s with turns := s.turns.tail } := by
  cases ht : s.turns with
  | nil => rw [step_of_no_turn ht, List.tail_nil, ← ht]
  | cons u ts =>
    obtain rfl := hn u (by rw [ht]; rfl)
    rw [step_of_turn ht, takeTurn, seqStep_of_wait (by exact hphase), List.tail_cons]

/-- The sequencer may be offered its turn in `P_WAIT` any number of times (R101). -/
theorem run_of_wait {k : Nat} {s : State} (hphase : s.phase = .pWait) (hn : ∀ u ∈ s.turns.take k, u = .sequencer) :
    ∃ t, Sys2Proof.core.run k s = .next t ∧ t.phase = .pWait := by
  induction k generalizing s with
  | zero => exact ⟨s, run_zero s, hphase⟩
  | succ k ih =>
    obtain ⟨hhead, htail⟩ := forall_take_succ.1 hn
    rw [run_succ_of_next (step_of_wait hphase hhead)]
    exact ih hphase htail

/-- Settles O33: the run keeps the operation, so that the block is still busy and selected, a CMD write is still an
overrun, and a reset still ends it. -/
theorem stallLastsUntilReset : Obligations.StallLastsUntilReset := by
  refine ⟨fun k s t hi hphase hn h => ?_, fun k s hphase hn => run_of_wait hphase hn⟩
  have ho := run_of_stalled hi hphase hn h
  have hwait := ho.phase.trans hphase
  have hbusy := (ho.inv hi).busy_of_wait hwait
  refine ⟨hwait, (ho.inv hi).asserted (by simp [hwait]), (statusWord_busy_iff t).2 hbusy, ho.pending, ho.req,
    ho.trace, fun w => ?_, fun d => ⟨resetStep d t, rfl, rfl, rfl, rfl⟩⟩
  exact (step_writeAt_cmd t w).trans (writeCmd_of_busy (s := t.logHost .written) hbusy w)

/-- Any byte can be received for a byte transfer (I7). -/
theorem Payload.received_byte_setWidth (b x : Byte) : (Payload.byte b).received (x.setWidth 16) = .byte x :=
  congrArg Payload.byte ((BitVec.extractLsb'_setWidth_of_le (by decide)).trans BitVec.extractLsb'_eq_self)

/-- What the transport received reaches the history alone (R96). -/
theorem transportStep_received (r r' : Half) (s : State) :
    transportStep r' s = { transportStep r s with history := (transportStep r' s).history } ∧
      (transportStep r' s).trace = (transportStep r s).trace := by
  cases hr : s.req with
  | none => rw [transportStep_none hr, transportStep_none hr]; exact ⟨rfl, rfl⟩
  | some p =>
    rw [transportStep_some hr, transportStep_some hr]
    exact ⟨rfl, by simp [State.trace]⟩

/-- The transport's turn as a step, without a request (assumption 3). -/
theorem step_transport_passes {s : State} (hr : s.req = none) (r : Half) :
    step (s.turnNext (.transport r)) = .next s :=
  congrArg Host.Outcome.next (transportStep_none hr r)

/-- Settles O32: the transport's turn with and without a request, the values it may receive, and the stall without
it. -/
theorem transportHandshake : Obligations.TransportHandshake := by
  refine ⟨fun s p r hr => ?_, fun b => ⟨fun r => ⟨_, rfl⟩, fun x => ⟨_, Payload.received_byte_setWidth b x⟩⟩,
    fun w => ⟨fun r => ⟨r, rfl⟩, fun x => ⟨x, rfl⟩⟩, fun s t t' r r' h h' => ?_, fun s r hr => ?_,
    fun s t p hi hr hn h => ?_⟩
  · exact congrArg Host.Outcome.next (transportStep_some hr r)
  · injection h with h
    injection h' with h'
    subst h h'
    exact transportStep_received r r' s
  · exact step_transport_passes hr r
  · obtain ⟨ho, -⟩ := step_of_stalled hi (hi.req_eq_some hr).1 hn h
    exact ⟨ho.req.trans hr, ho.trace⟩

end Sys2Proof.Machine
end

section
/-! SUPPORT. The course of an operation (R95, R97, R100, R102): what is still to be emitted, how far the end is, and
the five turns of a frame. -/

namespace Sys2Proof.Machine

/-- An idle block has nothing left to emit. -/
theorem remaining_of_idle {s : State} (h : s.pending = []) : s.remaining = [] := by
  rw [State.remaining, h, List.flatMap_nil, List.drop_nil]

/-- In `P_CS` every event of every pending frame is still to be emitted. -/
theorem remaining_of_pCs {s : State} (h : s.phase = .pCs) : s.remaining = s.pending.flatMap Frame.events := by
  rw [State.remaining, h, Phase.emitted, List.drop_zero]

/-- What a sequencer's turn emits is the first of what was still to be emitted (R94, R95). -/
theorem SeqEffect.trace_remaining {s t : State} (e : SeqEffect s t) :
    t.trace ++ t.remaining = s.trace ++ s.remaining := by
  cases e with
  | passes => rfl
  | selects f rest hp hphase | drives f rest hp hphase | requests f rest hp hphase | releases f rest hp hphase =>
    simp [State.trace, State.remaining, hp, hphase, Frame.events, Phase.emitted, List.filter_cons]

/-- `DONE` is no block event: the transport's turn leaves the trace and what is still to be emitted (R95, R96). -/
theorem Inv.transportStep_trace_remaining {s : State} (h : Inv s) (r : Half) :
    (transportStep r s).trace ++ (transportStep r s).remaining = s.trace ++ s.remaining := by
  cases hr : s.req with
  | none => rw [transportStep_none hr]
  | some p =>
    have hphase := (h.req_eq_some hr).1
    rw [transportStep_some hr]
    simp [State.trace, State.remaining, hphase, Phase.emitted]

/-- Settles O38, by the agent whose turn the step is: only a host's accept brings new events to emit. -/
theorem framesAppearInAcceptOrder : Obligations.FramesAppearInAcceptOrder := by
  intro s t hi hn h
  cases step_effect h with
  | stays => exact .inl rfl
  | host ts hn' _ e =>
    rcases e.keeps_or_accepts with ho | ⟨hb, hphase, -, hhist, w, i, hw, hd, hp⟩
    · exact .inl (by rw [ho.trace, ho.remaining])
    · exact .inr ⟨hb, remaining_of_idle hb, trace_eq_of_history hhist, w, i, (nextWrite_of_host hn').trans hw, hd,
        by rw [remaining_of_pCs hphase, hp]⟩
  | sequencer ts => exact .inl (seqStep_effect { s with turns := ts }).trace_remaining
  | transport r ts => exact .inl ((hi.setTurns ts).transportStep_trace_remaining r)
  | reset d ts hn' => cases hn _ (by rw [hn']; rfl)

/-- With a head frame, its phase and the frames behind it give the distance to the end. -/
theorem stepsLeft_cons {s : State} {f : Frame} {rest : List Frame} (hp : s.pending = f :: rest) :
    s.stepsLeft = s.phase.stepsLeft + 5 * rest.length := by
  rw [State.stepsLeft, hp]

/-- Between two frames five steps are left of each pending frame. -/
theorem stepsLeft_of_pCs {s : State} (hphase : s.phase = .pCs) : s.stepsLeft = 5 * s.pending.length := by
  cases hp : s.pending with
  | nil => rw [State.stepsLeft, hp]; rfl
  | cons f rest =>
    rw [stepsLeft_cons hp, hphase, Phase.stepsLeft, List.length_cons]
    omega

/-- Nothing is left of an operation exactly when the block is idle. -/
theorem stepsLeft_eq_zero_iff (s : State) : s.stepsLeft = 0 ↔ s.pending = [] := by
  cases hp : s.pending with
  | nil => simp [State.stepsLeft, hp]
  | cons f rest =>
    rw [stepsLeft_cons hp]
    cases s.phase <;> simp [Phase.stepsLeft]

/-- Outside `P_WAIT` the sequencer's turn of a busy block is one step of progress (R94, R102). -/
theorem SeqEffect.stepsLeft {s t : State} (e : SeqEffect s t) (hb : s.pending ≠ []) (hphase : s.phase ≠ .pWait) :
    t.stepsLeft + 1 = s.stepsLeft := by
  cases e with
  | passes h => exact (h.elim hphase hb).elim
  | selects f rest hp h | drives f rest hp h | requests f rest hp h =>
    rw [stepsLeft_cons hp, h, stepsLeft_cons (by exact hp)]
    simp only [Phase.stepsLeft]
    omega
  | releases f rest hp h =>
    rw [stepsLeft_cons hp, h, stepsLeft_of_pCs rfl]
    simp only [Phase.stepsLeft]
    omega

/-- `DONE` is one step of progress (R96, R102). -/
theorem transportStep_stepsLeft {s : State} {p : Payload} (hb : s.pending ≠ []) (hphase : s.phase = .pWait)
    (hr : s.req = some p) (r : Half) : (transportStep r s).stepsLeft + 1 = s.stepsLeft := by
  obtain ⟨f, rest, hp⟩ := List.exists_cons_of_ne_nil hb
  rw [transportStep_some hr, stepsLeft_cons hp, hphase, stepsLeft_cons (by exact hp)]
  simp only [Phase.stepsLeft]
  omega

/-- The request of a busy block is outstanding exactly in `P_WAIT` (R32). -/
theorem Inv.wait_iff {s : State} (h : Inv s) (hb : s.pending ≠ []) : s.phase = .pWait ↔ s.req ≠ none := by
  refine ⟨fun hphase => ?_, fun hr => by_contra fun hphase => hr (h.req_none hphase)⟩
  obtain ⟨f, rest, hp⟩ := List.exists_cons_of_ne_nil hb
  simp [h.req_head, State.expectedReq, hphase, hp]

/-- Settles O40: which agent has a step, and each agent's turn. -/
theorem everyTurnOfItsAgentIsProgress : Obligations.EveryTurnOfItsAgentIsProgress := by
  refine ⟨stepsLeft_eq_zero_iff, fun s hi hb => ⟨hi.wait_iff hb, fun t hphase h => ?_, fun t r hphase h => ?_,
    fun t hphase h => ?_, fun t r hphase h => ?_, fun t ts hn h => ?_⟩⟩
  · exact (seqEffect_of_step h).stepsLeft hb hphase
  · injection h with h
    obtain ⟨p, hr⟩ := Option.ne_none_iff_exists'.1 ((hi.wait_iff hb).1 hphase)
    exact h ▸ transportStep_stepsLeft hb hphase hr r
  · cases (step_sequencer_passes (.inl hphase)).symm.trans h
    rfl
  · cases (step_transport_passes (hi.req_none hphase) r).symm.trans h
    rfl
  · exact ((hostEffect_of_turn hn h).sameOperation hb).stepsLeft

/-- The turns of one frame, in order: three of the sequencer, the transport's, and one of the sequencer (R94, R96). -/
def frameTurns (r : Half) : List Turn := [.sequencer, .sequencer, .sequencer, .transport r, .sequencer]

/-- All events of one frame, its four block events with the transport's `DONE` among them (R94 to R96). -/
def Frame.fullEvents (f : Frame) (r : Half) : List Event :=
  [.cs true, .dc f.dc, f.payload.request, .done (f.payload.received r), .cs false]

/-- Of all events of a frame the trace shows its four block events (R95). -/
theorem fullEvents_onTrace (f : Frame) (r : Half) : (f.fullEvents r).filter Event.onTrace = f.events := by
  simp [Frame.fullEvents, Frame.events, List.filter_cons]

/-- A run through the sequencer's turn on a head frame. -/
theorem run_sequencer {s : State} {f : Frame} {rest : List Frame} {ts : List Turn} (hn : s.turns = .sequencer :: ts)
    (hp : s.pending = f :: rest) (k : Nat) :
    Sys2Proof.core.run (k + 1) s = Sys2Proof.core.run k (seqStepOn f rest { s with turns := ts }) :=
  run_succ_of_next ((step_of_turn hn).trans (congrArg Host.Outcome.next (seqStep_cons (by exact hp)))) k

/-- A run through the transport's turn with a request outstanding. -/
theorem run_transport {s : State} {p : Payload} {r : Half} {ts : List Turn} (hn : s.turns = .transport r :: ts)
    (hr : s.req = some p) (k : Nat) : Sys2Proof.core.run (k + 1) s = Sys2Proof.core.run k
      { s.emit (.done (p.received r)) with req := none, phase := .pRel, turns := ts } :=
  run_succ_of_next ((step_of_turn hn).trans (congrArg Host.Outcome.next (transportStep_some (by exact hr) r))) k

/-- Five turns from `P_CS` emit the head frame, and leave the block in `P_CS` with chip-select released (R94 to
R97). -/
theorem run_frameTurns {s : State} {f : Frame} {rest : List Frame} {r : Half} {ts : List Turn}
    (hp : s.pending = f :: rest) (hphase : s.phase = .pCs) (hcs : s.cs = false) (hreq : s.req = none)
    (hn : s.turns = frameTurns r ++ ts) (k : Nat) : Sys2Proof.core.run (k + 5) s = Sys2Proof.core.run k { s with
      pending := rest, dc := f.dc, history := s.history ++ f.fullEvents r, turns := ts } := by
  refine (run_sequencer hn hp (k + 4)).trans ?_
  simp only [seqStepOn, State.emit, hphase]
  refine Eq.trans (run_sequencer rfl (by exact hp) (k + 3)) ?_
  simp only [seqStepOn, State.emit]
  refine Eq.trans (run_sequencer rfl (by exact hp) (k + 2)) ?_
  simp only [seqStepOn, State.emit]
  refine Eq.trans (run_transport rfl rfl (k + 1)) ?_
  simp only [State.emit]
  refine Eq.trans (run_sequencer rfl (by exact hp) k) ?_
  simp [seqStepOn, State.emit, Frame.fullEvents, hcs, hreq]

/-- The turns of as many frames as are pending emit them all, and change nothing else but the data/command line and
the history (R97, R102). -/
theorem run_allFrames {s : State} {rs : List Half} {ts : List Turn} (hphase : s.phase = .pCs) (hcs : s.cs = false)
    (hreq : s.req = none) (hlen : rs.length = s.pending.length) (hn : s.turns = rs.flatMap frameTurns ++ ts) :
    ∃ t, Sys2Proof.core.run (5 * s.pending.length) s = .next t ∧
      t = { s with pending := [], dc := t.dc, history := t.history, turns := ts } ∧
      t.trace = s.trace ++ s.pending.flatMap Frame.events := by
  induction rs generalizing s with
  | nil =>
    have hp : s.pending = [] := List.length_eq_zero_iff.1 hlen.symm
    exact ⟨s, by rw [hp]; exact run_zero s, by rw [← hp]; cases s; cases hn; rfl, by simp [hp]⟩
  | cons r rs ih =>
    cases hp : s.pending with
    | nil => simp [hp] at hlen
    | cons f rest =>
      have hlen' : rs.length = rest.length := by simpa [hp] using hlen
      have hn' : s.turns = frameTurns r ++ (rs.flatMap frameTurns ++ ts) := by simpa using hn
      obtain ⟨t, hrun, ht, htrace⟩ := ih (s := { s with
        pending := rest, dc := f.dc, history := s.history ++ f.fullEvents r, turns := rs.flatMap frameTurns ++ ts })
        hphase hcs hreq hlen' rfl
      refine ⟨t, ?_, ht, ?_⟩
      · exact (run_frameTurns hp hphase hcs hreq hn' _).trans hrun
      · simpa [State.trace, fullEvents_onTrace] using htrace

/-- Settles O39: in `P_CS` the lines are released and no request is outstanding, and the turns are those of the pending
frames. -/
theorem operationCompletes : Obligations.OperationCompletes := by
  intro s rs ts hi hphase hlen hn
  obtain ⟨hcs, hreq⟩ := hi.released hphase
  obtain ⟨t, hrun, ht, htrace⟩ := run_allFrames hphase hcs hreq hlen hn
  exact ⟨t, hrun, ht, htrace, by rw [ht]; exact hcs, by rw [ht]; exact statusWord_idle rfl⟩

end Sys2Proof.Machine
end

section
/-! SUPPORT. The order of the events on the bus (R95, R98), read off the watcher `busPhase`. -/

namespace Sys2Proof.Machine

/-- The watcher allows a last event exactly if it allowed those before and this one may come next. -/
theorem busPhase_append_one_eq_some {es : List Event} {e : Event} {q : Phase} :
    busPhase (es ++ [e]) = some q ↔ ∃ p, busPhase es = some p ∧ busNext p e = some q := by
  rw [busPhase_append_one, Option.bind_eq_some_iff]

/-- The watcher has allowed every first part of the events it allows. -/
theorem busPhase_of_append {es es' : List Event} {q : Phase} (h : busPhase (es ++ es') = some q) :
    ∃ p, busPhase es = some p := by
  induction es' using List.reverseRecOn generalizing q with
  | nil => exact ⟨q, by simpa using h⟩
  | append_singleton es' e ih =>
    rw [← List.append_assoc] at h
    obtain ⟨p, hp, -⟩ := busPhase_append_one_eq_some.1 h
    exact ih hp

/-- A transfer request comes only in `P_XFER`, and leads to `P_WAIT` (R95). -/
theorem busNext_transfer {e : Event} {p q : Phase} (he : e.isTransfer = true) (h : busNext p e = some q) :
    p = .pXfer ∧ q = .pWait := by
  cases e with
  | xb | xw => cases p <;> cases h; exact ⟨rfl, rfl⟩
  | cs | dc | done | rst => cases he

/-- Only a `DC` event leads to `P_XFER`, from `P_DC` (R95). -/
theorem busNext_to_pXfer {e : Event} {p : Phase} (h : busNext p e = some .pXfer) : p = .pDc ∧ ∃ d, e = .dc d := by
  cases e with
  | dc d => cases p <;> cases h; exact ⟨rfl, d, rfl⟩
  | cs b => cases b <;> cases p <;> cases h
  | xb | xw | done | rst => cases p <;> cases h

/-- Only a `CS(1)` leads to `P_DC` (R95). -/
theorem busNext_to_pDc {e : Event} {p : Phase} (h : busNext p e = some .pDc) : e = .cs true := by
  cases e with
  | cs b =>
    cases b with
    | true => rfl
    | false => cases p <;> cases h
  | dc | xb | xw | done | rst => cases p <;> cases h

/-- After a transfer request only a `CS(0)` or a reset leaves `P_WAIT` and `P_REL` (R95, R181). -/
theorem busNext_between {e : Event} {p q : Phase} (hp : p = .pWait ∨ p = .pRel) (h : busNext p e = some q)
    (hcs : e ≠ .cs false) (hrst : e ≠ .rst) : q = .pWait ∨ q = .pRel := by
  cases e with
  | rst => exact absurd rfl hrst
  | done =>
    rcases hp with rfl | rfl <;> cases h
    exact .inr rfl
  | cs b =>
    cases b with
    | false => exact absurd rfl hcs
    | true => rcases hp with rfl | rfl <;> cases h
  | dc | xb | xw => rcases hp with rfl | rfl <;> cases h

/-- A watcher in `P_XFER` has just seen a `CS(1)` and a `DC` event. -/
theorem busPhase_pXfer_ends {es : List Event} (h : busPhase es = some .pXfer) :
    ∃ earlier d, es = earlier ++ [.cs true, .dc d] := by
  rcases List.eq_nil_or_concat' es with rfl | ⟨es, e, rfl⟩
  · cases h
  · obtain ⟨p, hp, hn⟩ := busPhase_append_one_eq_some.1 h
    obtain ⟨rfl, d, rfl⟩ := busNext_to_pXfer hn
    rcases List.eq_nil_or_concat' es with rfl | ⟨es, e, rfl⟩
    · cases hp
    · obtain ⟨p, -, hn⟩ := busPhase_append_one_eq_some.1 hp
      obtain rfl := busNext_to_pDc hn
      exact ⟨es, d, by simp⟩

/-- Just before a transfer request the watcher is in `P_XFER`. -/
theorem busPhase_before_transfer {before after : List Event} {e : Event} {q : Phase}
    (h : busPhase (before ++ e :: after) = some q) (he : e.isTransfer = true) :
    busPhase before = some .pXfer ∧ busPhase (before ++ [e]) = some .pWait := by
  rw [List.append_cons] at h
  obtain ⟨q', hq⟩ := busPhase_of_append h
  obtain ⟨p, hp, hn⟩ := busPhase_append_one_eq_some.1 hq
  obtain ⟨rfl, rfl⟩ := busNext_transfer he hn
  exact ⟨hp, hq⟩

/-- From `P_WAIT` on, without a `CS(0)` and a reset, the watcher stays in `P_WAIT` and `P_REL`. -/
theorem busPhase_between {es between : List Event} {q : Phase} (hw : busPhase es = some .pWait)
    (h : busPhase (es ++ between) = some q) (hcs : .cs false ∉ between) (hrst : .rst ∉ between) :
    q = .pWait ∨ q = .pRel := by
  induction between using List.reverseRecOn generalizing q with
  | nil => exact .inl (by simpa [hw] using h.symm)
  | append_singleton between e ih =>
    rw [← List.append_assoc] at h
    obtain ⟨p, hp, hn⟩ := busPhase_append_one_eq_some.1 h
    simp only [List.mem_append, List.mem_singleton, not_or] at hcs hrst
    exact busNext_between (ih hp hcs.1 hrst.1) hn (Ne.symm hcs.2) (Ne.symm hrst.2)

/-- Settles O37: the watcher is in `P_WAIT` after the first request and in `P_XFER` before the second, and only a
`CS(0)` or a reset can lead from there to here. -/
theorem oneTransferPerChipSelect : Obligations.OneTransferPerChipSelect := by
  intro s hi
  have hbus := hi.bus_order
  refine ⟨fun before between after e e' hs he he' => ?_, fun before after e hs he => ?_⟩
  · rw [hs] at hbus
    have hsecond := (busPhase_before_transfer hbus he').1
    have hfirst := (busPhase_before_transfer hsecond he).2
    by_contra hno
    obtain ⟨hcs, hrst⟩ := not_or.1 hno
    rw [List.append_cons] at hsecond
    have := busPhase_between hfirst hsecond hcs hrst
    simp at this
  · rw [hs] at hbus
    exact busPhase_pXfer_ends (busPhase_before_transfer hbus he).1

end Sys2Proof.Machine
end

section
/-! SUPPORT. The framer's three commands in the idle block (R110 to R113). -/

namespace Sys2Proof.Machine

/-- Settles O9: the idle accept takes its result and its frames from the tables of R120 and R93, where each framer
command has no range check and its one frame. -/
theorem framerCommandsComplete : Obligations.FramerCommandsComplete := by
  intro s hidle
  refine ⟨fun b => ?_, fun b => ?_, fun w => ?_⟩
  · exact exec_of_idle hidle (.sendCmd b)
  · exact exec_of_idle hidle (.sendData8 b)
  · exact exec_of_idle hidle (.sendData16 w)

end Sys2Proof.Machine
end

section
/-! SUPPORT. The range check and the frames of SET_WINDOW (R120 to R122). -/

namespace Sys2Proof.Machine

/-- A window passes exactly if it meets the window invariant (R120). -/
theorem rangeFail_setWindow_eq_false_iff (c : Config) (k : Snapshot) : rangeFail c .setWindow k = false ↔
    k.x0.toNat ≤ k.x1.toNat ∧ k.x1.toNat < c.surfaceW ∧ k.y0.toNat ≤ k.y1.toNat ∧ k.y1.toNat < c.surfaceH := by
  rw [← Bool.not_eq_true, rangeFail_iff]
  simp only [true_and, not_or, Nat.not_lt, Nat.not_le]

/-- A SET_WINDOW that passes has the two address commands, each with its two bounds (R121). -/
theorem opFrames_setWindow_of_pass {c : Config} {k : Snapshot} (h : rangeFail c .setWindow k = false) :
    opFrames c .setWindow k =
      [frameC c.cmdCaset, frameD16 k.x0, frameD16 k.x1, frameC c.cmdRaset, frameD16 k.y0, frameD16 k.y1] :=
  if_neg (Bool.eq_false_iff.1 h)

/-- Settles O15: the failing check is `rangeFail_iff`; a passing one bounds each axis by the surface, and the lower
bounds by the upper ones. -/
theorem rangeCheckIsFourComparisons : Obligations.RangeCheckIsFourComparisons := by
  refine ⟨rangeFail_iff, fun c k h => ?_⟩
  obtain ⟨hx, hw, hy, hh⟩ := (rangeFail_setWindow_eq_false_iff c k).1 h
  exact ⟨hx, Nat.le_pred_of_lt hw, hy, Nat.le_pred_of_lt hh, hx.trans_lt hw, hy.trans_lt hh⟩

/-- Settles O10: the idle accept takes its result from the range check, which decides between no frame and six. -/
theorem windowCommandCompletes : Obligations.WindowCommandCompletes := by
  intro s hidle
  refine ⟨fun hout => ?_, fun hx hw hy hh => ?_⟩
  · have hfail : rangeFail s.cfg .setWindow s.snapshot = true := (rangeFail_iff _ _ _).2 ⟨rfl, hout⟩
    rw [exec_of_idle hidle, hfail, opFrames_of_rangeFail hfail]
  · have hpass : rangeFail s.cfg .setWindow s.snapshot = false :=
      (rangeFail_setWindow_eq_false_iff _ _).2 ⟨hx, hw, hy, hh⟩
    rw [exec_of_idle hidle, hpass, opFrames_setWindow_of_pass hpass]
    rfl

end Sys2Proof.Machine
end

section
/-! SUPPORT. The frames of FILL and their transfer requests (R130, R131). -/

namespace Sys2Proof.Machine

/-- Of a frame's four block events one is a transfer request, the byte's or the word's of its payload (R94, R95). -/
theorem events_filter_isTransfer (f : Frame) : f.events.filter Event.isTransfer = [f.payload.request] := by
  obtain ⟨d, p⟩ := f
  cases p with
  | byte b => rfl
  | word w => rfl

/-- A list of frames has one transfer request per frame, in the order of the frames (R93, R95). -/
theorem flatMap_events_filter_isTransfer (fs : List Frame) :
    (fs.flatMap Frame.events).filter Event.isTransfer = fs.map fun f => f.payload.request := by
  induction fs with
  | nil => rfl
  | cons f fs ih => rw [List.flatMap_cons, List.filter_append, events_filter_isTransfer, ih]; rfl

/-- FILL has the RAM-write command's frame and one frame for each pixel (R131). -/
theorem opFrames_fill_length (c : Config) (n : Half) (k : Snapshot) :
    (opFrames c (.fill n) k).length = n.toNat + 1 :=
  congrArg (· + 1) List.length_replicate

/-- A frame of FILL behind the first is a pixel of the snapshot's colour (R130). -/
theorem opFrames_fill_getElem?_succ {c : Config} {n : Half} {k : Snapshot} {j : Nat} {f : Frame}
    (h : (opFrames c (.fill n) k)[j + 1]? = some f) : f = frameD16 k.color :=
  List.eq_of_mem_replicate (List.mem_of_getElem? h)

/-- Settles O16: an operation has as many transfer requests as frames, and FILL's frames are the RAM-write command and
one pixel per count. -/
theorem fillFrameCount : Obligations.FillFrameCount := by
  intro c n k
  refine ⟨opFrames_fill_length c n k, ?_, rfl, fun j f hj hf => ?_⟩
  · rw [flatMap_events_filter_isTransfer, List.length_map, opFrames_fill_length]
  · cases j with
    | zero => exact absurd hj (Nat.lt_irrefl 0)
    | succ j => exact opFrames_fill_getElem?_succ hf

/-- Settles O11: the idle accept takes its result and its frames from the tables of R120 and R93, where FILL has no
range check and the frames of R130. -/
theorem fillCommandCompletes : Obligations.FillCommandCompletes := by
  intro n s hidle
  exact exec_of_idle hidle (.fill n)

end Sys2Proof.Machine
end

section
/-! SUPPORT. The errors of R160: an access that the block does not take (R163), an overrun (R162) and an illegal word
(R161) each leave their own record and nothing else, and every access in the window ends in one error at most
(R167). -/

namespace Sys2Proof.Machine

/-- An access in the window that names no register gets the error response and changes no state (R163). -/
theorem hostAccess_of_untaken {a : HostAccess} {s : State} (hin : inWindow s.cfg a.addr = true)
    (hr : a.target s.cfg = none) : hostAccess a s = .next (s.logHost .busError) := by
  rw [hostAccess, if_pos hin, hr, raise_hostBusError]

/-- An access in the window that names a register is that register's (R51). -/
theorem hostAccess_of_taken {a : HostAccess} {s : State} (hin : inWindow s.cfg a.addr = true) {r : Reg}
    (hr : a.target s.cfg = some r) : hostAccess a s = accessReg r a.kind s := by
  rw [hostAccess, if_pos hin, hr]

/-- Settles O24: a wrong width or alignment names no register. -/
theorem badAccessGetsBusError : Obligations.BadAccessGetsBusError := by
  intro s a hlo hhi hbad
  have hin : inWindow s.cfg a.addr = true := (inWindow_iff _ _).2 ⟨hlo, Nat.lt_succ_of_le hhi⟩
  rw [step_hostNext_access]
  exact hostAccess_of_untaken hin ((target_eq_none_iff hin).2 hbad)

/-- Settles O13: the command port looks at BUSY before the word, and OVR = 1 is no error-free state. -/
theorem overrunIsDropped : Obligations.OverrunIsDropped := by
  intro w s hb
  rw [step_writeAt_cmd]
  refine ⟨_, writeCmd_of_busy (s := s.logHost .written) hb w, rfl, rfl, ?_⟩
  simp [State.errorFree]

/-- No command changes ILL (R24). -/
theorem exec_ill {i : Instr} {s t : State} (h : exec i s = .next t) : t.ill = s.ill := by
  rw [exec_frame h]

/-- Settles O14: the idle command port discards an illegal word into ILL, which STATUS shows and no command clears. -/
theorem illegalWordOnlySetsIll : Obligations.IllegalWordOnlySetsIll := by
  refine ⟨fun w s hb hd => ?_, fun i s t h hill => (exec_ill h).trans hill⟩
  rw [step_writeAt_cmd]
  exact ⟨_, writeCmd_of_illegal (s := s.logHost .written) hb hd, rfl, statusWord_bit2 _, statusWord_idle hb⟩

/-- A CMD write with BUSY = 1 raises CommandOverrun (R162). -/
theorem cmdError_of_busy {s : State} (hb : s.pending ≠ []) (w : Word) : cmdError w s = some .commandOverrun := by
  simp [cmdError, (busy_eq_true_iff s).2 hb]

/-- A CMD write of an illegal word with BUSY = 0 raises IllegalCommand (R161). -/
theorem cmdError_of_illegal {s : State} (hb : s.pending = []) {w : Word} (hd : decode w = none) :
    cmdError w s = some .illegalCommand := by
  simp [cmdError, (busy_eq_false_iff s).2 hb, hd]

/-- A CMD write of a legal word with BUSY = 0 raises RangeError if its range check fails, and else nothing (R120). -/
theorem cmdError_of_legal {s : State} (hb : s.pending = []) {w : Word} {i : Instr} (hd : decode w = some i) :
    cmdError w s = if rangeFail s.cfg i s.snapshot then some .rangeError else none := by
  simp [cmdError, (busy_eq_false_iff s).2 hb, hd]

/-- Which error a CMD write raises, in the order of R167. -/
theorem cmdError_iff (w : Word) (s : State) :
    (cmdError w s = some .commandOverrun ↔ s.pending ≠ []) ∧
    (cmdError w s = some .illegalCommand ↔ s.pending = [] ∧ decode w = none) ∧
    (cmdError w s = some .rangeError ↔
      s.pending = [] ∧ decode w = some .setWindow ∧ rangeFail s.cfg .setWindow s.snapshot = true) := by
  by_cases hb : s.pending = []
  · cases hd : decode w with
    | none => simp [cmdError_of_illegal hb hd, hb]
    | some i =>
      rw [cmdError_of_legal hb hd]
      cases hf : rangeFail s.cfg i s.snapshot with
      | true =>
        obtain ⟨rfl, -⟩ := (rangeFail_iff _ _ _).1 hf
        simp [hb, hf]
      | false =>
        have hwin : i = .setWindow → rangeFail s.cfg .setWindow s.snapshot = false := fun hi => hi ▸ hf
        simpa [hb] using hwin
  · simp [cmdError_of_busy hb, hb]

/-- A CMD write raises no HostBusError: that error is the access's (R163). -/
theorem cmdError_ne_hostBusError (w : Word) (s : State) : cmdError w s ≠ some .hostBusError := by
  unfold cmdError
  repeat' split
  all_goals simp

/-- An access that names no register raises HostBusError (R163). -/
theorem accessError_of_untaken {a : HostAccess} {s : State} (hr : a.target s.cfg = none) :
    accessError a s = some .hostBusError := by
  simp [accessError, hr]

/-- A write to CMD raises the command port's error. -/
theorem accessError_of_cmdWrite {a : HostAccess} {s : State} {w : Word} (hr : a.target s.cfg = some .cmd)
    (hk : a.kind = .write w) : accessError a s = cmdError w s := by
  simp [accessError, hr, hk]

/-- A read raises no error (R160). -/
theorem accessError_of_read {a : HostAccess} {s : State} {r : Reg} (hr : a.target s.cfg = some r)
    (hk : a.kind = .read) : accessError a s = none := by
  simp [accessError, hr, hk]

/-- A write to a register other than CMD raises no error (R160). -/
theorem accessError_of_write {a : HostAccess} {s : State} {r : Reg} {v : Word} (hr : a.target s.cfg = some r)
    (hk : a.kind = .write v) (hcmd : r ≠ .cmd) : accessError a s = none := by
  simp [accessError, hr, hk, hcmd]

/-- How an access in the window can end: in one error, which the state records, or in none (R167). -/
inductive AccessResult (s : State) : Option ErrorKind → State → Prop
  | busError : AccessResult s (some .hostBusError) (s.logHost .busError)
  | overrun (hb : s.pending ≠ []) : AccessResult s (some .commandOverrun) { s.logHost .written with ovr := true }
  | illegal (hb : s.pending = []) : AccessResult s (some .illegalCommand) { s.logHost .written with ill := true }
  | outOfRange (hb : s.pending = []) :
      AccessResult s (some .rangeError) { s.logHost .written with rerr := true, pending := [], phase := .pCs }
  | quiet (t : State) (x : HostResult) (hx : x ≠ .busError) (hlog : t.hostLog = s.hostLog ++ [x])
      (hill : t.ill = true → s.ill = true) (hovr : t.ovr = true → s.ovr = true)
      (hrerr : t.rerr = true → s.rerr = true) : AccessResult s none t

/-- A CMD write leaves the record of the error it raises (R90, R167). -/
theorem accessResult_of_writeCmd {w : Word} {s t : State} (h : writeCmd w (s.logHost .written) = .next t) :
    AccessResult s (cmdError w s) t := by
  by_cases hb : s.pending = []
  · cases hd : decode w with
    | none =>
      cases (writeCmd_of_illegal (s := s.logHost .written) hb hd).symm.trans h
      exact cmdError_of_illegal hb hd ▸ .illegal hb
    | some i =>
      cases (writeCmd_of_legal (s := s.logHost .written) hb hd).symm.trans h
      rw [cmdError_of_legal hb hd, State.logHost_cfg, snapshot_logHost]
      cases hf : rangeFail s.cfg i s.snapshot with
      | true => rw [opFrames_of_rangeFail hf]; exact .outOfRange hb
      | false => exact .quiet _ .written nofun rfl id id nofun
  · cases (writeCmd_of_busy (s := s.logHost .written) hb w).symm.trans h
    exact cmdError_of_busy hb w ▸ .overrun hb

/-- A write to a register other than CMD raises no error, and sets no error bit (R26 to R29). -/
theorem accessResult_of_writeReg {r : Reg} (hcmd : r ≠ .cmd) {v : Word} {s t : State}
    (h : writeReg r v (s.logHost .written) = .next t) : AccessResult s none t := by
  cases r with
  | cmd => exact absurd rfl hcmd
  | status =>
    cases h
    exact .quiet _ .written nofun rfl (fun h => (Bool.and_eq_true_iff.1 h).1) (fun h => (Bool.and_eq_true_iff.1 h).1) id
  | x0 | x1 | y0 | y1 | color | reserved =>
    cases h
    exact .quiet _ .written nofun rfl id id id

/-- Every access in the window ends in the error that R167's order gives it. -/
theorem accessResult_of_hostAccess {a : HostAccess} {s t : State} (hin : inWindow s.cfg a.addr = true)
    (h : hostAccess a s = .next t) : AccessResult s (accessError a s) t := by
  cases hr : a.target s.cfg with
  | none =>
    cases (hostAccess_of_untaken hin hr).symm.trans h
    exact accessError_of_untaken hr ▸ .busError
  | some r =>
    rw [hostAccess_of_taken hin hr] at h
    cases hk : a.kind with
    | read =>
      rw [hk] at h
      cases h
      exact accessError_of_read hr hk ▸ .quiet _ (.readData (s.readReg r)) nofun rfl id id id
    | write v =>
      rw [hk] at h
      by_cases hcmd : r = .cmd
      · subst hcmd
        exact accessError_of_cmdWrite hr hk ▸ accessResult_of_writeCmd h
      · exact accessError_of_write hr hk hcmd ▸ accessResult_of_writeReg hcmd h

/-- HostBusError is the error of exactly the accesses that name no register (R163). -/
theorem accessError_eq_hostBusError_iff (a : HostAccess) (s : State) :
    accessError a s = some .hostBusError ↔ a.target s.cfg = none := by
  refine ⟨fun h => ?_, accessError_of_untaken⟩
  cases hr : a.target s.cfg with
  | none => rfl
  | some r =>
    cases hk : a.kind with
    | read => cases (accessError_of_read hr hk).symm.trans h
    | write v =>
      by_cases hcmd : r = .cmd
      · subst hcmd
        exact absurd ((accessError_of_cmdWrite hr hk).symm.trans h) (cmdError_ne_hostBusError v s)
      · cases (accessError_of_write hr hk hcmd).symm.trans h

/-- Settles O26: the command port's error is the first that applies in R167's order, and the access leaves the record
of its one error. -/
theorem atMostOneErrorPerAccess : Obligations.AtMostOneErrorPerAccess := by
  refine ⟨fun s w => ?_, fun a s t hin h => ?_⟩
  · have hr : HostAccess.target ⟨s.cfg.base + 0x18, 32, .write w⟩ s.cfg = some .cmd := target_offset s.cfg .cmd _
    rw [accessError_of_cmdWrite hr rfl]
    exact cmdError_iff w s
  · rw [step_hostNext_access] at h
    refine ⟨(accessError_eq_hostBusError_iff a s).trans (target_eq_none_iff hin), ?_⟩
    have hres := accessResult_of_hostAccess hin h
    generalize accessError a s = e at hres ⊢
    cases hres with
    | busError => simp
    | overrun hb => simpa using hb
    | illegal hb => simpa using hb
    | outOfRange hb => simpa using hb
    | quiet _ x hx hlog hill hovr hrerr => simpa [hlog, Ne.symm hx] using ⟨hill, hovr, hrerr⟩

end Sys2Proof.Machine
end

section
/-! SUPPORT. Error-free runs (R172): ILL and OVR fall only by a clearing write or a reset, a run without an error is one
from each state on its way, and a result read back as success is the range check of the SET_WINDOW accepted last. -/

namespace Sys2Proof.Machine

/-- No statement of the host's program clears a sticky error (R26). -/
def State.neverClears (s : State) : Prop := ∀ st ∈ s.program, st.clearsErrors s.cfg = false

/-- A next step that writes STATUS with bit 2 or 3 set is a statement of the program that clears an error (R26). -/
theorem clearsErrors_of_nextWrite {s : State} {v : Word} (hw : s.nextWrite = some (.status, v)) {k : Nat}
    (hk : k = 2 ∨ k = 3) (hv : v.getLsbD k = true) : ∃ st ∈ s.program, st.clearsErrors s.cfg = true := by
  obtain ⟨-, hw⟩ := nextWrite_eq_some hw
  unfold State.hostWrite at hw
  split at hw
  case h_2 => cases hw
  case h_1 a rest hp =>
    obtain ⟨addr, width, kind⟩ := a
    refine ⟨_, hp ▸ List.mem_cons_self, ?_⟩
    cases kind with
    | read => cases hw
    | write v' =>
      simp only [Option.ite_none_right_eq_some, Option.map_eq_some_iff, Prod.mk.injEq] at hw
      obtain ⟨-, r, hr, rfl, rfl⟩ := hw
      simp only [HostStmt.clearsErrors, hr, decide_true, Bool.true_and, Bool.or_eq_true]
      rcases hk with rfl | rfl
      · exact .inl hv
      · exact .inr hv

/-- A step keeps a part of the host's program, and uses up the head of the turns (R54). -/
theorem step_program {s t : State} (h : step s = .next t) :
    (∀ st ∈ t.program, st ∈ s.program) ∧ t.turns = s.turns.tail := by
  cases ht : s.turns with
  | nil =>
    cases (step_of_no_turn ht).symm.trans h
    exact ⟨fun _ => id, ht⟩
  | cons u ts =>
    rw [step_of_turn ht] at h
    cases u with
    | host => exact hostStep_program h
    | sequencer =>
      cases h
      rw [seqStep_frame]
      exact ⟨fun _ => id, rfl⟩
    | transport r =>
      cases h
      rw [transportStep_frame]
      exact ⟨fun _ => id, rfl⟩
    | reset d =>
      cases h
      exact ⟨fun _ => id, rfl⟩

/-- A program that clears no error goes on to clear none. -/
theorem State.neverClears.of_step {s t : State} (hc : s.neverClears) (h : step s = .next t) : t.neverClears := by
  intro st hst
  rw [step_cfg h]
  exact hc st ((step_program h).1 st hst)

/-- With no reset and no clearing write next, a sticky error bit that is 0 after a step was 0 before it (R168). -/
theorem StickyChange.before {s : State} {k : Nat} {raises : Prop} {b b' : Bool} (h : StickyChange s k raises b b')
    (hk : k = 2 ∨ k = 3) (hn : ∀ u ∈ s.turns.head?, u.isReset = false) (hc : s.neverClears) (hb' : b' = false) :
    b = false := by
  refine Bool.eq_false_iff.2 fun hb => ?_
  rcases h.falls hb hb' with ⟨v, hw, hv⟩ | ⟨d, ts, hr⟩
  · obtain ⟨st, hst, hcl⟩ := clearsErrors_of_nextWrite hw hk hv
    cases (hc st hst).symm.trans hcl
  · cases hn (.reset d) (by rw [hr]; rfl)

/-- Over a run with no reset and no clearing write, ILL = 0 and OVR = 0 at the end show that both were 0 in every
state (R172). -/
theorem run_ill_ovr_before {k : Nat} {s t : State} (h : Sys2Proof.core.run k s = .next t)
    (hn : ∀ u ∈ s.turns.take k, u.isReset = false) (hc : s.neverClears) (ht : t.ill = false ∧ t.ovr = false) :
    ∀ j ≤ k, ∃ u, Sys2Proof.core.run j s = .next u ∧ u.ill = false ∧ u.ovr = false := by
  induction k generalizing s with
  | zero =>
    intro j hj
    obtain rfl := Nat.le_zero.1 hj
    exact ⟨t, h, ht⟩
  | succ k ih =>
    obtain ⟨s', hs, hrun⟩ := run_succ_next h
    obtain ⟨hhead, htail⟩ := forall_take_succ.1 hn
    have later := ih hrun ((step_program hs).2 ▸ htail) (hc.of_step hs)
    intro j hj
    cases j with
    | zero =>
      obtain ⟨_, hu, hill, hovr⟩ := later 0 k.zero_le
      cases hu
      exact ⟨s, run_zero s, (step_ill hs).before (.inl rfl) hhead hc hill,
        (step_ovr hs).before (.inr rfl) hhead hc hovr⟩
    | succ j =>
      rw [run_succ_of_next hs]
      exact later j (Nat.le_of_succ_le_succ hj)

/-- Settles O46: bits 2 and 3 of the final STATUS are ILL and OVR, and each step passes them back. -/
theorem finalStatusShowsIllAndOvrNeverSet : Obligations.FinalStatusShowsIllAndOvrNeverSet := by
  intro k s t h hn hc h2 h3
  exact run_ill_ovr_before h hn hc ⟨(statusWord_bit2 t).symm.trans h2, (statusWord_bit3 t).symm.trans h3⟩

/-- The first state of an error-free run has no error (R172). -/
theorem errorFree_of_errorFreeRun {depends : Nat → Bool} {k : Nat} {s : State}
    (h : errorFreeRun depends k s = true) : s.errorFree = true := by
  cases k with
  | zero => exact h
  | succ k => exact ((errorFreeRun_succ depends k s).1 h).1

/-- An error-free state (R172 (a) to (c)). -/
theorem errorFree_iff (s : State) :
    s.errorFree = true ↔ s.ovr = false ∧ s.ill = false ∧ .busError ∉ s.hostLog := by
  simp [State.errorFree, and_assoc]

/-- A run goes on from the state that its first `j` steps answer. -/
theorem run_add {j : Nat} {s t : State} (h : Sys2Proof.core.run j s = .next t) (n : Nat) :
    Sys2Proof.core.run (n + j) s = Sys2Proof.core.run n t := by
  induction j generalizing s with
  | zero =>
    cases h
    rfl
  | succ j ih =>
    obtain ⟨u, hu, hrun⟩ := run_succ_next h
    exact (run_succ_of_next hu (n + j)).trans (ih hrun)

/-- After `j` of its steps an error-free run goes on as one, with the dependence counted from there. -/
theorem errorFreeRun_after {depends : Nat → Bool} {n : Nat} {s : State} (j : Nat)
    (h : errorFreeRun depends (n + j) s = true) :
    ∃ t, Sys2Proof.core.run j s = .next t ∧ errorFreeRun (fun i => depends (i + j)) n t = true := by
  induction j generalizing s depends with
  | zero => exact ⟨s, run_zero s, h⟩
  | succ j ih =>
    obtain ⟨-, -, s', hs, hrest⟩ := (errorFreeRun_succ depends (n + j) s).1 h
    rw [run_succ_of_next hs]
    exact ih hrest

/-- RERR stays as it is over a step that neither accepts a command nor resets (R23). -/
theorem step_rerr_of_no_accept {s t : State} (h : step s = .next t) (ha : s.accepts = none)
    (hr : s.resetsNext = false) : t.rerr = s.rerr := by
  rcases step_rerr_cases h with heq | hreset | ⟨hb, w, i, hw, hd⟩
  · exact heq
  · exact absurd ((resetsNext_iff s).2 hreset) (by simp [hr])
  · cases ha.symm.trans ((accepts_eq_some_iff s i).2 ⟨w, hw, hb, hd⟩)

/-- A result that is read back as success is RERR = 0 now, and some later step reads it (R164). -/
theorem exists_read_of_readsBackSuccess {k : Nat} {s : State} (h : readsBackSuccess k s = true) :
    s.rerr = false ∧ ∃ n u, n < k ∧ Sys2Proof.core.run n s = .next u ∧ u.readsStatus = true ∧ u.rerr = false := by
  induction k generalizing s with
  | zero => cases h
  | succ k ih =>
    rcases (readsBackSuccess_succ k s).1 h with ⟨hread, hrerr⟩ | ⟨ha, hr, t, hs, hlater⟩
    · exact ⟨hrerr, 0, s, k.succ_pos, run_zero s, hread, hrerr⟩
    · obtain ⟨hrerr, n, u, hn, hrun, hu⟩ := ih hlater
      exact ⟨(step_rerr_of_no_accept hs ha hr).symm.trans hrerr, n + 1, u, Nat.succ_lt_succ hn,
        (run_succ_of_next hs n).trans hrun, hu⟩

/-- The accept of a command leaves in RERR the result of its range check (R23, R120). -/
theorem step_rerr_of_accept {s t : State} (h : step s = .next t) {w : Word} {i : Instr}
    (hw : s.nextWrite = some (.cmd, w)) (hb : s.pending = []) (hd : decode w = some i) :
    t.rerr = rangeFail s.cfg i s.snapshot := by
  obtain ⟨ts, p, l, hc⟩ := step_of_cmdWrite h hw
  cases (writeCmd_of_legal (s := s.hostMoved ts p l) hb hd).symm.trans hc
  rfl

/-- Settles O52: the run from each state on its way is error-free, and at a SET_WINDOW depended on the result read back
is that of its range check. -/
theorem errorFreeRunDependsOnPassedWindows : Obligations.ErrorFreeRunDependsOnPassedWindows := by
  intro depends k s h
  refine ⟨fun j hj => ?_, fun j hj hdep t w hrun hw hb hd => ?_⟩
  · obtain ⟨n, rfl⟩ := Nat.exists_eq_add_of_le' hj
    obtain ⟨t, hrun, hfree⟩ := errorFreeRun_after j h
    exact ⟨t, hrun, (errorFree_iff t).1 (errorFree_of_errorFreeRun hfree)⟩
  · obtain ⟨n, rfl⟩ : ∃ n, k = n + 1 + j := ⟨k - 1 - j, by omega⟩
    obtain ⟨t', hrun', hfree⟩ := errorFreeRun_after j h
    cases hrun.symm.trans hrun'
    obtain ⟨-, hpassed, -⟩ := (errorFreeRun_succ _ n t).1 hfree
    rw [Nat.zero_add, hdep, windowPassed_of_accepts ((accepts_eq_some_iff t _).2 ⟨w, hw, hb, hd⟩)] at hpassed
    obtain ⟨t₁, hstep, hback⟩ := hpassed
    obtain ⟨hrerr, m, u, hm, hrun₁, hu⟩ := exists_read_of_readsBackSuccess hback
    refine ⟨(step_rerr_of_accept hstep hw hb hd).symm.trans hrerr, m + 1 + j, u, by omega, by omega, ?_, hu⟩
    rw [run_add hrun, run_succ_of_next hstep, hrun₁]

end Sys2Proof.Machine
end

section
/-! SUPPORT. The reset (R35, R180, R181): what its one step leaves, from any state and from an idle block. -/

namespace Sys2Proof.Machine

/-- The reset's turn as a step: it always answers, whatever the block is doing (R180). -/
theorem step_reset (d : Dc) (s : State) : step (s.turnNext (.reset d)) = .next (resetStep d s) :=
  step_turnNext (.reset d) s

/-- STATUS reads 0 with no sticky error, no failed result and nothing pending (R26). -/
theorem statusWord_eq_zero {s : State} (hovr : s.ovr = false) (hill : s.ill = false) (hrerr : s.rerr = false)
    (hidle : s.pending = []) : s.statusWord = 0x00000000#32 := by
  rw [State.statusWord, hovr, hill, hrerr, (busy_eq_false_iff s).2 hidle]
  rfl

/-- With chip-select released its pin is at the level of the other polarity (R32). -/
theorem csPin_of_released {s : State} (h : s.cs = false) : s.csPin = s.cfg.csActiveLow := by
  rw [State.csPin, h, Bool.false_xor]

/-- `RST` stands on the trace (R181). -/
@[simp] theorem onTrace_rst : Event.rst.onTrace = true := rfl

/-- A reset appends `RST` to the trace, and nothing else (R181). -/
theorem resetStep_trace (d : Dc) (s : State) : (resetStep d s).trace = s.trace ++ [.rst] :=
  trace_append (State.resetStep_history d s) (by simp)

/-- An idle block of the invariant is in `P_CS` with chip-select released and no request, so a reset changes only its
registers, STATUS bits, `dc` and events (R31, R32, R180). -/
theorem Inv.resetStep_of_idle {s : State} (h : Inv s) (hidle : s.pending = []) (d : Dc) :
    resetStep d s = { s with rerr := false, ill := false, ovr := false, x0 := 0#16, x1 := 0#16, y0 := 0#16, y1 := 0#16,
                             color := 0#16, dc := d, history := s.history ++ [.rst] } := by
  have hphase := h.idle_phase hidle
  obtain ⟨hcs, hreq⟩ := h.released hphase
  rw [hidle, hphase, hcs, hreq]
  rfl

/-- Settles O43: the reset leaves no frame and no request, so that both agents' next turns pass. -/
theorem resetAbandonsOperation : Obligations.ResetAbandonsOperation := by
  refine ⟨fun s t d h => ?_, fun s t d hi hidle h => ?_⟩
  · cases (step_reset d s).symm.trans h
    exact ⟨resetStep_trace d s, rfl, rfl, remaining_of_idle rfl, rfl, csPin_of_released rfl, rfl,
      step_transport_passes rfl, step_sequencer_passes (.inr rfl)⟩
  · cases (step_reset d s).symm.trans h
    exact hi.resetStep_of_idle hidle d

/-- Settles O42: STATUS reads 0 since its four bits are 0, and every other value is the reset's or power-on's own. -/
theorem resetReturnsEveryPieceOfState : Obligations.ResetReturnsEveryPieceOfState := by
  refine ⟨fun s d => ⟨resetStep d s, step_reset d s, statusWord_eq_zero rfl rfl rfl rfl, ?_⟩,
    fun c d => ⟨statusWord_eq_zero rfl rfl rfl rfl, ?_⟩⟩
  · exact ⟨rfl, rfl, rfl, rfl, rfl, rfl, rfl, rfl, rfl, rfl, rfl, rfl, rfl⟩
  · exact ⟨rfl, rfl, rfl, rfl, rfl, rfl, rfl, rfl, rfl, rfl⟩

end Sys2Proof.Machine
end

section
/-! SUPPORT. The idle block (R182): who can end its silence. -/

namespace Sys2Proof.Machine

/-- From an idle state of the invariant only a reset records an event: the host records none, and neither the sequencer
nor the transport has a step (R182). -/
theorem Inv.step_history_of_idle {s t : State} (hi : Inv s) (hidle : s.pending = []) (h : step s = .next t) :
    t.history = s.history ∨ ∃ d ts, s.turns = .reset d :: ts := by
  cases step_effect h with
  | stays => exact .inl rfl
  | host ts _ _ e =>
    rcases e.keeps_or_accepts with ho | ⟨-, -, -, hhistory, -⟩
    · exact .inl ho.history
    · exact .inl hhistory
  | sequencer ts => exact .inl (by rw [seqStep_of_idle (by exact hidle)])
  | transport r ts =>
    obtain ⟨-, hreq⟩ := hi.released (hi.idle_phase hidle)
    exact .inl (by rw [transportStep_none (by exact hreq)])
  | reset d ts hn => exact .inr ⟨d, ts, hn⟩

/-- Settles O44: an idle block's agents have no step, and BUSY rises only by an accept. -/
theorem idleBlockEmitsNothing : Obligations.IdleBlockEmitsNothing := by
  refine ⟨fun c d => statusWord_idle rfl, fun s t hi hidle h => ⟨hi.step_history_of_idle hidle h, ?_⟩⟩
  by_cases ht : t.pending = []
  · exact .inl ht
  · obtain ⟨w, i, hw, hd, -⟩ := step_busy_rises h hidle ht
    exact .inr ⟨w, i, hw, hd⟩

end Sys2Proof.Machine
end

section
/-! SUPPORT. The init table (R185): its reader takes off one record at a time, exactly the bytes that the record has. -/

namespace Sys2Proof.Machine

/-- The reader takes a record's bytes off the front, if its argument count fits the count byte. -/
theorem initRecords_recordBytes_append {r : InitRecord} (hr : r.args.length < 256) (k : Nat) (bs : List Byte) :
    initRecords (k + 1) (recordBytes r ++ bs) = (initRecords k bs).map (r :: ·) := by
  have hn : (BitVec.ofNat 8 r.args.length).toNat = r.args.length := Nat.mod_eq_of_lt hr
  simp [recordBytes, initRecords, hn]

/-- A reader that answers has no records to read and no bytes left, or took a record's bytes off the front. -/
theorem initRecords_eq_some {k : Nat} {t : List Byte} {rs : List InitRecord} (h : initRecords k t = some rs) :
    (k = 0 ∧ t = [] ∧ rs = []) ∨
    ∃ k' bs r rs', k = k' + 1 ∧ t = recordBytes r ++ bs ∧ rs = r :: rs' ∧ initRecords k' bs = some rs' := by
  unfold initRecords at h
  split at h
  · cases h
    exact .inl ⟨rfl, rfl, rfl⟩
  · rename_i k n d c bytes
    split at h
    · rename_i hn
      obtain ⟨rs', hrs, rfl⟩ := Option.map_eq_some_iff.1 h
      have hbytes : recordBytes ⟨d, c, bytes.take n.toNat⟩ ++ bytes.drop n.toNat = n :: d :: c :: bytes := by
        simp [recordBytes, List.length_take_of_le hn]
      exact .inr ⟨k, _, _, rs', rfl, hbytes.symm, rfl, hrs⟩
    · cases h
  · cases h

/-- Records whose argument counts fit are read back from their bytes. -/
theorem initRecords_flatMap_recordBytes {rs : List InitRecord} (h : ∀ r ∈ rs, r.args.length < 256) :
    initRecords rs.length (rs.flatMap recordBytes) = some rs := by
  induction rs with
  | nil => rfl
  | cons r rs ih =>
    obtain ⟨hr, hrs⟩ := List.forall_mem_cons.1 h
    rw [List.length_cons, List.flatMap_cons, initRecords_recordBytes_append hr, ih hrs, Option.map_some]

/-- What is read as records is those records' bytes, and as many as were asked for. -/
theorem recordBytes_of_initRecords {k : Nat} {t : List Byte} {rs : List InitRecord} (h : initRecords k t = some rs) :
    rs.length = k ∧ rs.flatMap recordBytes = t := by
  induction rs generalizing k t with
  | nil =>
    obtain ⟨rfl, rfl, -⟩ | ⟨_, _, _, _, -, -, hrs, -⟩ := initRecords_eq_some h
    · exact ⟨rfl, rfl⟩
    · cases hrs
  | cons r rs ih =>
    obtain ⟨-, -, hrs⟩ | ⟨k, bs, _, _, rfl, rfl, hrs, hrest⟩ := initRecords_eq_some h
    · cases hrs
    · cases hrs
      obtain ⟨hlen, hbytes⟩ := ih hrest
      exact ⟨by rw [List.length_cons, hlen], by rw [List.flatMap_cons, hbytes]⟩

/-- Settles O51: the record count fits the first byte, and the reader and the records' bytes are inverse to each other. -/
theorem initTableReadsBack : Obligations.InitTableReadsBack := by
  refine ⟨fun rs hlen hargs => ?_, fun t rs h => ?_⟩
  · have hk : (BitVec.ofNat 8 rs.length).toNat = rs.length := Nat.mod_eq_of_lt hlen
    rw [tableBytes, initTable, hk, initRecords_flatMap_recordBytes hargs]
  · cases t with
    | nil => cases h
    | cons k bytes =>
      obtain ⟨hlen, hbytes⟩ := recordBytes_of_initRecords h
      rw [tableBytes, hlen, hbytes, BitVec.ofNat_toNat, BitVec.setWidth_eq]

end Sys2Proof.Machine
end
